-- ==== Sys2Proof/Word.lean ====
section
/-! DEFINITION. The bit vectors of the machine and the names of its eight registers (R6, R9 of
spec/00_scope.md; R21 of spec/10_state.md). -/

namespace Sys2Proof

/-- A memory byte, an opcode, an immediate or a signal id: an unsigned 8-bit number (R6, R9). -/
abbrev Byte := BitVec 8

/-- A register value or an instruction word: an unsigned 16-bit number (R6, R9). -/
abbrev Word := BitVec 16

/-- The eight registers, in the order of R21's table. Their ordinals are `Reg.ord`. -/
inductive Reg where
  | a
  | b
  | c
  | m
  | sp
  | pc
  | bp
  | flags
deriving DecidableEq, Repr

end Sys2Proof
end

