-- ==== Sys2Proof/Config.lean ====
section
/-! DEFINITION. The parameters of the spec (R7 of spec/00_scope.md) as plain data, with the defaults
the spec uses, and the FREE VALUES: opaque constants, one for each draw the spec leaves open
(`choose` of R10; U1 to U4 of spec/93_implementation_defined.md). Nothing can be proved of a free
value, so a statement about one holds whatever it is. The outcome of a host handler, the last free
value, needs the type of states and stands in Machine/Signal.lean. -/

namespace Sys2Proof

/-- The seven instruction tags (R14, R72). -/
inductive Tag where
  | nop
  | push
  | popRegister
  | pushRegister
  | addStack
  | addRegister
  | signal
deriving DecidableEq, Repr

/-- OPCODE_MAP (R7, R76): an 8-bit code for each tag. Injectivity is `OpcodeMap.injective`. -/
structure OpcodeMap where
  nop : Byte
  push : Byte
  popRegister : Byte
  pushRegister : Byte
  addStack : Byte
  addRegister : Byte
  signal : Byte
deriving DecidableEq, Repr

/-- The default codes of R76 (decision D1; log 2). -/
def OpcodeMap.default : OpcodeMap :=
  ⟨0x00#8, 0x01#8, 0x02#8, 0x03#8, 0x04#8, 0x05#8, 0x06#8⟩

/-- The parameters a step reads (R7): MEM_SIZE, OPCODE_MAP and RESERVED_BITS_STRICT. They are fixed
for a machine; the model carries them beside its state, so that a statement for every state is a
statement for every value of them (log 1). -/
structure Config where
  /-- MEM_SIZE (R7, R47). -/
  memSize : Nat
  /-- OPCODE_MAP (R7, R76). -/
  opcodes : OpcodeMap
  /-- RESERVED_BITS_STRICT (R7, R83). -/
  strict : Bool
deriving DecidableEq, Repr

/-- The defaults of R7 (logs 2, 3 and 4). -/
def Config.default : Config := ⟨8192, OpcodeMap.default, true⟩

/-- The parameters of a launch by the run entry point (R7, R197). -/
structure LaunchParams where
  /-- LOAD_BASE. -/
  loadBase : Word
  /-- INITIAL_SP. -/
  initialSp : Word
  /-- HALT_SIGNAL_ID. -/
  haltSignalId : Byte
deriving DecidableEq, Repr

/-- The defaults of R7 and R197 (decisions D21 and D25; log 24). -/
def LaunchParams.default : LaunchParams := ⟨0x0000#16, 0x1000#16, 0xF0#8⟩

/-- The parameters of the assembler (R7, R91, R94). -/
structure AsmParams where
  /-- ASM_COMMENT. -/
  comment : Char
  /-- ASM_HEX_PREFIX. -/
  hexPrefix : Char
  /-- ASM_BIN_PREFIX. -/
  binPrefix : Char
deriving DecidableEq, Repr

/-- The defaults of R7 (decisions D22 and D23; log 25). -/
def AsmParams.default : AsmParams := ⟨';', '$', '%'⟩

/-- FREE VALUE (R50, decision D8; log 6). For the draw numbered by the argument: does a 16-bit write
whose second byte is out of range store its low byte before it fails? -/
opaque Config.storesLowByte : Nat → Bool

/-- FREE VALUE (R140, decision D9; log 7). For the draw numbered by the argument: does an `AddStack`
whose second pop fails keep the first pop's decrement of SP? -/
opaque Config.keepsFirstPop : Nat → Bool

/-- FREE VALUE (R51, R52, decision D27; log 8). For the draw numbered by the first argument: what the
destination byte at the offset given by the second holds after a failed bulk operation. -/
opaque Config.bulkByte : Nat → Nat → Byte

/-- FREE VALUE (R91, R92; log 26). Whether a character that is neither a space, a tab nor printable
ASCII counts as whitespace in assembly text; the spec does not say. -/
opaque Config.otherWhitespace : Char → Bool

end Sys2Proof
end

