-- ==== Sys2Proof/Syntax.lean ====
section
/-! DEFINITION. The instructions (R14 of spec/00_scope.md; R72 of spec/30_encoding.md), one
constructor for each row of spec/opcode_table.json. -/

namespace Sys2Proof

/-- The decoded, operand-bearing form of one executable unit (R15, R72). Each operand's type is
exactly its range, so no term is ill-formed: R84 encodes every instruction value. -/
inductive Instr where
  /-- No effect (R119). -/
  | nop
  /-- Push an 8-bit constant, zero-extended (R125). -/
  | push (imm : Byte)
  /-- Pop the top slot into a register (R130). -/
  | popRegister (r : Reg)
  /-- Push a register (R135). -/
  | pushRegister (r : Reg)
  /-- Pop two values, push their sum (R140). -/
  | addStack
  /-- Add the second register into the first (R145). -/
  | addRegister (r1 r2 : Reg)
  /-- Call the handler registered for an id (R156). -/
  | signal (id : Byte)
deriving DecidableEq, Repr

end Sys2Proof
end

