-- ==== Sys2Proof/WellFormed.lean ====
section
/-! DEFINITION. The checks on the data a machine is built from. An instruction needs none: each operand's
type is its range (a 3-bit choice of register, an 8-bit immediate), so every term of `Instr` is an
instruction value of R84. What the spec does bound are the parameters of R7. -/

namespace Sys2Proof

/-- The seven codes in the order of R76. -/
def OpcodeMap.codes (m : OpcodeMap) : List Byte :=
  [m.nop, m.push, m.popRegister, m.pushRegister, m.addStack, m.addRegister, m.signal]

/-- "No two tags share a code" (R75, R76). -/
abbrev OpcodeMap.injective (m : OpcodeMap) : Prop := m.codes.Nodup

/-- 1 ≤ MEM_SIZE ≤ 65536 (R7, R47; decision D5). -/
abbrev Config.memSizeOk (c : Config) : Prop := 1 ≤ c.memSize ∧ c.memSize ≤ 65536

/-- The parameters are ones the spec admits. -/
abbrev Config.wf (c : Config) : Prop := c.memSizeOk ∧ c.opcodes.injective

/-- The two radix markers differ: "a different prefix marker selects binary" (R94). A marker may be a digit,
as R7 allows any character (log 35). -/
abbrev AsmParams.wf (p : AsmParams) : Prop := p.hexPrefix ≠ p.binPrefix

end Sys2Proof
end

