-- ==== Sys2Proof/Decode.lean ====
section
/-! DEFINITION. The encoding of instructions (spec/30_encoding.md): the fields of a word, the registry,
the decoder (R80 to R83), which is total and refuses a word by name, and the encoder (R84). -/

namespace Sys2Proof

/-! ### Bytes and fields of a word (R70, R71) -/

/-- Bits 7:0 (R70). -/
def lowByte (w : Word) : Byte := w.extractLsb' 0 8

/-- Bits 15:8 (R70). -/
def highByte (w : Word) : Byte := w.extractLsb' 8 8

/-- The word whose low byte is `lo` and whose high byte is `hi`: `lo + 256 * hi` (R49, R70). -/
def wordOfBytes (lo hi : Byte) : Word := hi ++ lo

/-- The field `reg1`, bits 11:8 (R71). -/
def reg1Field (w : Word) : BitVec 4 := w.extractLsb' 8 4

/-- The field `reg2`, bits 15:12 (R71). -/
def reg2Field (w : Word) : BitVec 4 := w.extractLsb' 12 4

/-! ### Register ordinals (R21, R74) -/

/-- The ordinal of a register: its place in R21's list, from 0 (decision D2; log 14). -/
def Reg.ord : Reg → Nat
  | .a => 0
  | .b => 1
  | .c => 2
  | .m => 3
  | .sp => 4
  | .pc => 5
  | .bp => 6
  | .flags => 7

/-- The eight registers by ordinal. -/
def Reg.all : List Reg := [.a, .b, .c, .m, .sp, .pc, .bp, .flags]

/-- The register a field value names, if it names one (R74). -/
def Reg.ofField (f : BitVec 4) : Option Reg := Reg.all[f.toNat]?

/-- The field value that names a register. -/
def Reg.toField (r : Reg) : BitVec 4 := BitVec.ofNat 4 r.ord

/-! ### The registry (R72, R75, R76) -/

/-- The three operand shapes (R71). -/
inductive Shape where
  | bare
  | immediate
  | register
deriving DecidableEq, Repr

/-- One row of the registry (R75). -/
structure RegistryRow where
  tag : Tag
  mnemonic : String
  code : Byte
  shape : Shape
  arity : Nat
deriving DecidableEq, Repr

/-- The row of a tag (R72, R76). Every conversion below reads this one table. -/
def registryRow (m : OpcodeMap) : Tag → RegistryRow
  | .nop => ⟨.nop, "Nop", m.nop, .bare, 0⟩
  | .push => ⟨.push, "Push", m.push, .immediate, 1⟩
  | .popRegister => ⟨.popRegister, "PopRegister", m.popRegister, .register, 1⟩
  | .pushRegister => ⟨.pushRegister, "PushRegister", m.pushRegister, .register, 1⟩
  | .addStack => ⟨.addStack, "AddStack", m.addStack, .bare, 0⟩
  | .addRegister => ⟨.addRegister, "AddRegister", m.addRegister, .register, 2⟩
  | .signal => ⟨.signal, "Signal", m.signal, .immediate, 1⟩

/-- The tags in the order of R76. -/
def Tag.all : List Tag :=
  [.nop, .push, .popRegister, .pushRegister, .addStack, .addRegister, .signal]

/-- The registry as a list of rows. -/
def registry (m : OpcodeMap) : List RegistryRow := Tag.all.map (registryRow m)

/-- The code of a tag. -/
def codeOf (m : OpcodeMap) (t : Tag) : Byte := (registryRow m t).code

/-- The tag whose code is `op`, if there is one. -/
def tagOfCode (m : OpcodeMap) (op : Byte) : Option Tag :=
  ((registry m).find? (fun row => row.code == op)).map (·.tag)

/-- The tag whose mnemonic is `token`, case included, if there is one (R92). -/
def tagOfMnemonic (m : OpcodeMap) (token : List Char) : Option Tag :=
  ((registry m).find? (fun row => row.mnemonic.toList == token)).map (·.tag)

/-! ### Decoding (R80 to R83) -/

/-- Why a word does not decode (R170). -/
inductive DecodeFault where
  /-- The opcode byte is no code of OPCODE_MAP. -/
  | unknownOpcode (op : Byte)
  /-- A register field holds 8 to 15. -/
  | unknownRegister (f : BitVec 4)
  /-- A bit its shape does not use is set, in strict mode. -/
  | reservedBitsSet (w : Word)
deriving DecidableEq, Repr

/-- `reg(f)` of R80. -/
def decodeReg (f : BitVec 4) : Except DecodeFault Reg :=
  match Reg.ofField f with
  | some r => .ok r
  | none => .error (.unknownRegister f)

/-- The bare arm of R80. -/
def decodeBare (strict : Bool) (w : Word) (i : Instr) : Except DecodeFault Instr :=
  if strict ∧ highByte w ≠ 0#8 then .error (.reservedBitsSet w) else .ok i

/-- The one-register arm of R80: the register check comes before the unused bits (R82). -/
def decodeOneRegister (strict : Bool) (w : Word) (mk : Reg → Instr) : Except DecodeFault Instr :=
  match decodeReg (reg1Field w) with
  | .error e => .error e
  | .ok r => if strict ∧ reg2Field w ≠ 0#4 then .error (.reservedBitsSet w) else .ok (mk r)

/-- The two-register arm of R80: reg1 is checked before reg2 (R82). -/
def decodeTwoRegisters (w : Word) (mk : Reg → Reg → Instr) : Except DecodeFault Instr :=
  match decodeReg (reg1Field w) with
  | .error e => .error e
  | .ok r1 =>
    match decodeReg (reg2Field w) with
    | .error e => .error e
    | .ok r2 => .ok (mk r1 r2)

/-- The operands of a word whose tag is known: the `case` of R80. -/
def decodeOperands (strict : Bool) (w : Word) : Tag → Except DecodeFault Instr
  | .nop => decodeBare strict w .nop
  | .push => .ok (.push (highByte w))
  | .popRegister => decodeOneRegister strict w .popRegister
  | .pushRegister => decodeOneRegister strict w .pushRegister
  | .addStack => decodeBare strict w .addStack
  | .addRegister => decodeTwoRegisters w .addRegister
  | .signal => .ok (.signal (highByte w))

/-- `decode(w)` of R80: total, and a function of the word and the parameters alone (R81). -/
def decode (cfg : Config) (w : Word) : Except DecodeFault Instr :=
  match tagOfCode cfg.opcodes (lowByte w) with
  | none => .error (.unknownOpcode (lowByte w))
  | some t => decodeOperands cfg.strict w t

/-- What the decoder reads from the two bytes of a word, the first at the lower address (R70). -/
def decodeBytes (cfg : Config) (b0 b1 : Byte) : Except DecodeFault Instr :=
  decode cfg (wordOfBytes b0 b1)

/-- The instruction, or none where the decoder refuses, that the default parameters read from a word
numbered as spec/opcode_table.json numbers it: `nbits` bits are given, every bit above them is 0, and
the first byte in memory is bits 7:0. -/
def decodeTableWord (nbits w : Nat) : Option Instr :=
  let v := w % 2 ^ nbits
  match decodeBytes Config.default (BitVec.ofNat 8 v) (BitVec.ofNat 8 (v / 256)) with
  | .ok i => some i
  | .error _ => none

/-! ### Encoding (R84) -/

/-- The tag of an instruction. -/
def Instr.tag : Instr → Tag
  | .nop => .nop
  | .push _ => .push
  | .popRegister _ => .popRegister
  | .pushRegister _ => .pushRegister
  | .addStack => .addStack
  | .addRegister _ _ => .addRegister
  | .signal _ => .signal

/-- The operand byte, bits 15:8 of the word; every bit a shape does not use is 0 (R84; D32). -/
def Instr.operandByte : Instr → Byte
  | .nop => 0#8
  | .push v => v
  | .popRegister r => 0#4 ++ r.toField
  | .pushRegister r => 0#4 ++ r.toField
  | .addStack => 0#8
  | .addRegister r1 r2 => r2.toField ++ r1.toField
  | .signal id => id

/-- `encode(i)` of R84. -/
def encode (cfg : Config) (i : Instr) : Word :=
  wordOfBytes (codeOf cfg.opcodes i.tag) i.operandByte

/-- The two bytes of an encoded instruction, the low byte first (R70, R84, R100). -/
def encodeBytes (cfg : Config) (i : Instr) : List Byte :=
  [lowByte (encode cfg i), highByte (encode cfg i)]

end Sys2Proof
end

