-- ==== Sys2Proof/Machine/State.lean ====
section
/-! DEFINITION. The state of the machine as plain data (R20 to R36 of spec/10_state.md), the failure
taxonomy (R170 of spec/60_exceptions.md), and the ways a step can stop. -/

namespace Sys2Proof.Machine

/-- The register file: eight 16-bit slots, no banks and no aliases (R21, R23). -/
structure RegFile where
  a : Word
  b : Word
  c : Word
  m : Word
  sp : Word
  pc : Word
  bp : Word
  flags : Word
deriving DecidableEq, Repr

/-- A handler name, the spec's type H (R33, R155). The halt handler of the run entry point (R163) has a
name of its own because the spec gives its outcome; every other handler is host code, named by a
number (log 9). -/
inductive Handler where
  /-- The halt handler of R163. -/
  | halt
  /-- A handler the host supplies (R155). -/
  | host (name : Nat)
deriving DecidableEq, Repr

/-- Linear memory: the bytes that differ from what an unlisted address reads as, by rising address
(R34, R53). Its canonical form is `Mem.wf`. -/
abbrev Mem := List Host.Cell

/-- The signal handler table: the entries that are not empty, by rising signal id (R33). Its canonical
form is `Table.wf`. -/
abbrev Table := List (Nat × Handler)

/-- The machine. `regs`, `mem`, `halt` and `table` are the four components of R20. `cfg` and `draws`
are the model's own: the parameters of R7, which nothing changes (log 1), and the number of draws
taken so far, which makes each `choose` of R10 a fresh one (log 5). -/
structure State where
  regs : RegFile
  mem : Mem
  halt : Bool
  table : Table
  cfg : Config
  draws : Nat
deriving DecidableEq, Repr

/-- Why `Signal` cannot dispatch (R170). -/
inductive DispatchFault where
  /-- No handler is registered for the id (R156). -/
  | unregisteredSignal (id : Byte)
deriving DecidableEq, Repr

/-- Why a line of assembly text is refused (R170). -/
inductive ParseFault where
  /-- The first token is no mnemonic (R92). -/
  | unknownMnemonic (token : List Char)
  /-- The operand count differs from the arity (R93). -/
  | arity (expected actual : Nat)
  /-- A numeric operand is no literal in 0..255 (R94). -/
  | badLiteral (token : List Char)
  /-- A register operand names no register (R95). -/
  | unknownRegisterName (token : List Char)
deriving DecidableEq, Repr

/-- The flat taxonomy of failure values (R170): "A failure is exactly one of" these. -/
inductive Failure where
  /-- The first address, as an integer, that an operation could not use. Raised by the fetch, by `Push`,
  `PopRegister`, `PushRegister` and `AddStack`, and by the host's memory operations. -/
  | memoryFault (addr : Int)
  /-- Raised by the step, on decoding. -/
  | decodeFault (why : DecodeFault)
  /-- Raised by `Signal`. -/
  | dispatchFault (why : DispatchFault)
  /-- A handler's own failure, with its payload (R162; log 28). Raised by `Signal`. -/
  | handlerFault (id : Byte) (payload : Nat)
  /-- Raised by the assembler alone, with the 1-based number of the line (R98). -/
  | parseFault (line : Nat) (why : ParseFault)
deriving DecidableEq, Repr

/-- How a step stops. -/
inductive Fault where
  /-- The step returns a failure value to its caller (R115, R171) and leaves the state `left`, which
  R120 gives for each failure point and from which a host may go on (R177; log 11). Raised by the
  step and by every instruction but `Nop` and `AddRegister`. Safe: the spec's own stop. -/
  | failed (why : Failure) (left : State)
  /-- The handler registered for the id never returns: the step has no successor (R164; log 10).
  Raised by `Signal`. Safe: the stuck state the spec describes. -/
  | handlerHang (id : Byte)
deriving DecidableEq, Repr

/-- Why an instruction has no meaning in the model. -/
inductive Refusal where
  /-- The instruction is not modelled. Raised by no arm: every instruction has its meaning. Safe. -/
  | notModelled (mnemonic : String)
deriving DecidableEq, Repr

/-- All eight registers 0x0000 (R36). -/
def RegFile.zero : RegFile := ⟨0#16, 0#16, 0#16, 0#16, 0#16, 0#16, 0#16, 0#16⟩

/-- `construct()` (R36, R41, R195) of a machine with the given parameters. -/
def State.construct (cfg : Config) : State := ⟨RegFile.zero, [], false, [], cfg, 0⟩

/-- The machine right after reset: construction, under the default parameters (R36, R195; log 1). -/
def State.reset : State := State.construct Config.default

end Sys2Proof.Machine
end

