-- ==== Sys2Proof/Machine/Ops.lean ====
section
/-! DEFINITION. The named operations over registers, the handler table and memory that every
instruction is written with (R10 of spec/00_scope.md): sparse data in canonical form, register and
table access, the memory capability and its 16-bit operations (R45 to R50 of spec/20_memory.md), the
one way a failure is raised (R171, R175 of spec/60_exceptions.md) and gone on from (R177), and the
fetch, advance and decode of a step (R110 to R113 of spec/40_dispatch.md). -/

namespace Sys2Proof.Machine

/-! ### Sparse data: entries by rising key -/

/-- The entry at a key. -/
def Sparse.get {α : Type} (k : Nat) : List (Nat × α) → Option α
  | [] => none
  | e :: rest => if e.1 = k then some e.2 else Sparse.get k rest

/-- Remove the entry at a key. -/
def Sparse.erase {α : Type} (k : Nat) (l : List (Nat × α)) : List (Nat × α) :=
  l.filter (fun e => e.1 ≠ k)

/-- Place an entry before the first entry with a greater key. -/
def Sparse.insert {α : Type} (k : Nat) (v : α) : List (Nat × α) → List (Nat × α)
  | [] => [(k, v)]
  | e :: rest => if k < e.1 then (k, v) :: e :: rest else e :: Sparse.insert k v rest

/-- Set the entry at a key, or remove it. -/
def Sparse.put {α : Type} (k : Nat) (o : Option α) (l : List (Nat × α)) : List (Nat × α) :=
  match o with
  | none => Sparse.erase k l
  | some v => Sparse.insert k v (Sparse.erase k l)

/-- Keys strictly rise, so no key is listed twice. -/
abbrev Sparse.rising {α : Type} (l : List (Nat × α)) : Prop := l.Pairwise (fun e f => e.1 < f.1)

/-! ### What an unlisted address reads as, and the canonical forms -/

/-- The byte an address reads as before anything is written there: memory is "a fixed-size,
zero-initialized byte array" (R36, R53). -/
def unlistedByte : Byte := 0x00#8

/-- The canonical form of memory: addresses strictly rise, and no entry equals what an unlisted address
reads as. -/
abbrev Mem.wf (m : Mem) : Prop := Sparse.rising m ∧ ∀ e ∈ m, e.2 ≠ unlistedByte

/-- Every listed address is one that memory backs (R34). -/
abbrev Mem.within (size : Nat) (m : Mem) : Prop := ∀ e ∈ m, e.1 < size

/-- The canonical form of the handler table: ids strictly rise and are 8 bits wide (R33). -/
abbrev Table.wf (t : Table) : Prop := Sparse.rising t ∧ ∀ e ∈ t, e.1 < 256

/-! ### Registers (R10, R21 to R23) -/

/-- `x[r]`. -/
def RegFile.get (f : RegFile) : Reg → Word
  | .a => f.a
  | .b => f.b
  | .c => f.c
  | .m => f.m
  | .sp => f.sp
  | .pc => f.pc
  | .bp => f.bp
  | .flags => f.flags

/-- `x[r] <- v`. -/
def RegFile.set (f : RegFile) (r : Reg) (v : Word) : RegFile :=
  match r with
  | .a => { f with a := v }
  | .b => { f with b := v }
  | .c => { f with c := v }
  | .m => { f with m := v }
  | .sp => { f with sp := v }
  | .pc => { f with pc := v }
  | .bp => { f with bp := v }
  | .flags => { f with flags := v }

/-- `x[r]` of the machine. No register is hard-wired and reading one never fails (R22, R37). -/
def State.getReg (s : State) (r : Reg) : Word := s.regs.get r

/-- `x[r] <- v` of the machine. -/
def State.setReg (s : State) (r : Reg) (v : Word) : State := { s with regs := s.regs.set r v }

/-- `sp`, as the integer the rules compute with (R9, R28). -/
def State.spNat (s : State) : Nat := (s.getReg .sp).toNat

/-- `pc`, as the integer the rules compute with (R9, R25). -/
def State.pcNat (s : State) : Nat := (s.getReg .pc).toNat

/-- `sp <- n`, for an `n` that fits in 16 bits. -/
def State.setSpNat (s : State) (n : Nat) : State := s.setReg .sp (BitVec.ofNat 16 n)

/-- `pc <- n`, for an `n` that fits in 16 bits. -/
def State.setPcNat (s : State) (n : Nat) : State := s.setReg .pc (BitVec.ofNat 16 n)

/-! ### Halt flag and handler table (R31 to R33) -/

/-- `halt <- b`. -/
def State.setHalt (s : State) (b : Bool) : State := { s with halt := b }

/-- `table[id]`: empty, or a handler name. -/
def State.entry (s : State) (id : Byte) : Option Handler := Sparse.get id.toNat s.table

/-- `table[id] <- e`. -/
def State.setEntry (s : State) (id : Byte) (e : Option Handler) : State :=
  { s with table := Sparse.put id.toNat e s.table }

/-! ### Draws (R10) -/

/-- The state after one draw. The draw itself is a free value of Config applied to `draws` (log 5). -/
def State.nextDraw (s : State) : State := { s with draws := s.draws + 1 }

/-! ### Memory (R45 to R50) -/

/-- R47: an integer address is in range when it lies in 0 .. MEM_SIZE - 1. -/
def State.inRange (s : State) (addr : Int) : Bool := decide (0 ≤ addr ∧ addr < s.cfg.memSize)

/-- `mem[k]`. -/
def State.byteAt (s : State) (k : Nat) : Byte := (Sparse.get k s.mem).getD unlistedByte

/-- `mem[k] <- v`, keeping the canonical form. -/
def State.setByte (s : State) (k : Nat) (v : Byte) : State :=
  { s with mem := Sparse.put k (if v = unlistedByte then none else some v) s.mem }

/-- `read(addr)`: the byte, or absent (R46). -/
def State.read (s : State) (addr : Int) : Option Byte :=
  if s.inRange addr then some (s.byteAt addr.toNat) else none

/-- `write(addr, v)`: success, or failure and no change (R48). -/
def State.write (s : State) (addr : Int) (v : Byte) : Option State :=
  if s.inRange addr then some (s.setByte addr.toNat v) else none

/-- A write whose failure is not looked at: out of range it changes nothing (R48). -/
def State.poke (s : State) (addr : Int) (v : Byte) : State := (s.write addr v).getD s

/-- `read2(addr)`: the little-endian word, or the first address out of range. The second address is an
integer sum and does not wrap (R49; decision D7; log 13). -/
def State.read2 (s : State) (addr : Int) : Except Int Word :=
  match s.read addr with
  | none => .error addr
  | some lo =>
    match s.read (addr + 1) with
    | none => .error (addr + 1)
    | some hi => .ok (wordOfBytes lo hi)

/-- The state a `write2` leaves whose first byte is in range and whose second is not: the first byte
holds its old value or the low byte, a draw (R50; decision D8; log 6). -/
def State.halfWritten (s : State) (addr : Int) (v : Word) : State :=
  if Config.storesLowByte s.draws then (s.setByte addr.toNat (lowByte v)).nextDraw else s.nextDraw

/-- `write2(addr, v)`: the state written, or the first address out of range and the state left (R50). -/
def State.write2 (s : State) (addr : Int) (v : Word) : Except (Int × State) State :=
  if s.inRange addr then
    if s.inRange (addr + 1) then
      .ok ((s.setByte addr.toNat (lowByte v)).setByte (addr + 1).toNat (highByte v))
    else .error (addr + 1, s.halfWritten addr v)
  else .error (addr, s)

/-! ### Raising a failure, and going on after one (R171, R175, R177) -/

/-- `raise E(info)`: the step returns the failure to its caller at once. No state is saved, no mode
changes and control goes to no vector; what the step had changed stays changed (R10, R171, R175). -/
def State.raise (s : State) (why : Failure) : Host.Outcome State Fault Refusal :=
  .fault (.failed why s)

/-- The state from which a host that goes on after a fault calls `step()` again: there is no return
instruction, and execution goes on from the pc the failed step left (R177). A handler that never
returned leaves none. -/
def Fault.resume : Fault → Option State
  | .failed _ left => some left
  | .handlerHang _ => none

/-! ### Fetch, advance and decode (R110 to R113) -/

/-- The state after the advance from a fetch at `a` (R112). -/
def State.advanced (s : State) (a : Nat) : State := s.setPcNat (a + 2)

/-- The part of a step before the dispatch: fetch, where a fault changes nothing (R111); overflow check
and advance (R112; decision D6; log 12); decode, where a fault keeps the advance (R113). -/
def fetch (s : State) : Except Fault (Instr × State) :=
  let a := s.pcNat
  match s.read2 a with
  | .error addr => .error (.failed (.memoryFault addr) s)
  | .ok w =>
    if a + 2 > 0xFFFF then .error (.failed (.memoryFault ((a + 2 : Nat) : Int)) s)
    else
      match decode s.cfg w with
      | .error why => .error (.failed (.decodeFault why) (s.advanced a))
      | .ok i => .ok (i, s.advanced a)

/-- The state with a word's two bytes in memory at an address, low byte first (R55), each where memory
backs it. -/
def State.placeWord (s : State) (addr : Int) (w : Word) : State :=
  (s.poke addr (lowByte w)).poke (addr + 1) (highByte w)

end Sys2Proof.Machine
end

