-- ==== Sys2Proof/Machine/Operands.lean ====
section
/-! DEFINITION. The operand forms of the instructions: the 8-bit immediate (R73 of
spec/30_encoding.md) and a register read as a source (R22 of spec/10_state.md; R204 of
spec/70_reset_and_hazards.md). There are no others (R72). -/

namespace Sys2Proof.Machine

/-- `zext_16(v)`: the immediate with zero upper bits; never sign-extended (R9, R73). -/
def zext16 (v : Byte) : Word := v.setWidth 16

/-- A register operand read as a source. The state is the one after the advance, so PC reads as the
address of the next word (R25, R204). -/
def registerOperand (s : State) (r : Reg) : Word := s.getReg r

end Sys2Proof.Machine
end

