-- ==== Sys2Proof/Machine/Flags.lean ====
section
/-! DEFINITION. The one arithmetic operation (R148 of spec/42_register_arith.md). There is no flag
computation to write: FLAGS is a plain register that no instruction reads or writes implicitly, and a
carry or an overflow is recorded nowhere (R29, R30 of spec/10_state.md; decision D15; log 22). -/

namespace Sys2Proof.Machine

/-- `a +16 b`: `(a + b) mod 65536` on unsigned operands (R9, R148). -/
def add16 (a b : Word) : Word := BitVec.ofNat 16 ((a.toNat + b.toNat) % 65536)

end Sys2Proof.Machine
end

