-- ==== Sys2Proof/Machine/Arith.lean ====
section
/-! DEFINITION. Register arithmetic (spec/42_register_arith.md): AddRegister. -/

namespace Sys2Proof.Machine

/-- `AddRegister(r1, r2)` (R145): both reads come before the write, and no flag is written. -/
def execAddRegister (r1 r2 : Reg) (s : State) : Host.Outcome State Fault Refusal :=
  .next (s.setReg r1 (add16 (registerOperand s r1) (registerOperand s r2)))

end Sys2Proof.Machine
end

