-- ==== Sys2Proof/Machine/Control.lean ====
section
/-! DEFINITION. Nop (R119 of spec/40_dispatch.md). -/

namespace Sys2Proof.Machine

/-- `Nop` (R119): no operation. The advance belongs to the step (R112). -/
def execNop (s : State) : Host.Outcome State Fault Refusal := .next s

end Sys2Proof.Machine
end

