-- ==== Sys2Proof/Machine/Signal.lean ====
section
/-! DEFINITION. Signal and the handler contract (spec/43_signal.md). What a host handler does is host
code: its outcome is a free value, given as the list of writes by which it changes the machine. -/

namespace Sys2Proof.Machine

/-- One write a handler can make (R161): any register; a memory byte, through the capability; the halt
flag; any table entry. Pushing, popping and nested signals are sequences of these (R161, R164). -/
inductive HandlerAction where
  | setReg (r : Reg) (v : Word)
  | write (addr : Word) (v : Byte)
  | setHalt (b : Bool)
  | setEntry (id : Byte) (e : Option Handler)
deriving DecidableEq, Repr

/-- One outcome of `run(h, s)` (R155): the writes that lead from s to the state the handler leaves, and
its result, success or failure with a payload (log 28). -/
structure HandlerOutcome where
  actions : List HandlerAction
  failure : Option Nat
deriving DecidableEq, Repr

/-- A handler's write. A memory write out of range fails softly and changes nothing; the failure is the
handler's own (R46, R48, R178; log 9). -/
def HandlerAction.apply (s : State) : HandlerAction → State
  | .setReg r v => s.setReg r v
  | .write addr v => s.poke addr.toNat v
  | .setHalt b => s.setHalt b
  | .setEntry id e => s.setEntry id e

/-- A handler's writes in their order. -/
def State.afterActions (s : State) (acts : List HandlerAction) : State :=
  acts.foldl HandlerAction.apply s

end Sys2Proof.Machine

namespace Sys2Proof

/-- FREE VALUE (R155, R164; decision D14; log 9). The outcome of the host handler of the given name, on
the whole state it is called with, or none where it never returns. The state holds the number of
draws taken, so two calls may have different outcomes although the machine is otherwise the same. -/
opaque Config.hostHandler : Nat → Machine.State → Option Machine.HandlerOutcome

end Sys2Proof

namespace Sys2Proof.Machine

/-- `run(h, s)` (R155): the outcome drawn, with the state the handler's writes act on, or none where the
handler never returns. The halt handler has exactly one outcome: success, with halt set (R163). -/
def callHandler (h : Handler) (s : State) : Option (HandlerOutcome × State) :=
  match h with
  | .halt => some (⟨[.setHalt true], none⟩, s)
  | .host n => (Config.hostHandler n s).map (fun o => (o, s.nextDraw))

/-- What a handler's outcome makes of the step: the state it leaves stands whether it succeeds or fails,
and its result is the step's (R156, R162; decision D12; log 18). -/
def State.finishSignal (s : State) (id : Byte) (o : HandlerOutcome) :
    Host.Outcome State Fault Refusal :=
  match o.failure with
  | none => .next (s.afterActions o.actions)
  | some p => (s.afterActions o.actions).raise (.handlerFault id p)

/-- `Signal(id)` (R156): an empty entry is a dispatch fault; a registered handler's outcome is the
step's; a handler with no outcome leaves the step without a successor (R164; log 10). -/
def execSignal (id : Byte) (s : State) : Host.Outcome State Fault Refusal :=
  match s.entry id with
  | none => s.raise (.dispatchFault (.unregisteredSignal id))
  | some h =>
    match callHandler h s with
    | none => .fault (.handlerHang id)
    | some (o, t) => t.finishSignal id o

end Sys2Proof.Machine
end

