-- ==== Sys2Proof/Machine/Stack.lean ====
section
/-! DEFINITION. The stack instructions (spec/41_stack.md): Push, PopRegister, PushRegister and AddStack.
The state is the one after the advance, and SP is the address of the next free slot (R28). -/

namespace Sys2Proof.Machine

/-- Push a word: the SP overflow check (decision D6; log 12), the write at SP, and SP only after it
succeeds (R125, R135). -/
def pushWord (v : Word) (s : State) : Host.Outcome State Fault Refusal :=
  let top := s.spNat
  if top + 2 > 0xFFFF then s.raise (.memoryFault ((top + 2 : Nat) : Int))
  else
    match s.write2 top v with
    | .error (addr, left) => left.raise (.memoryFault addr)
    | .ok t => .next (t.setSpNat (top + 2))

/-- Read the slot below the stack pointer value `top`, or give the address that cannot be used: `top - 2`
itself when it is negative (R130; decision D6; log 12). -/
def slotBelow (s : State) (top : Nat) : Except Int Word :=
  if top < 2 then .error ((top : Int) - 2) else s.read2 ((top : Int) - 2)

/-- The state an `AddStack` leaves whose second pop fails: SP keeps its value or the first pop's
decrement, a draw, and memory is unchanged (R140; decision D9; log 7). -/
def State.halfPopped (s : State) (top : Nat) : State :=
  if Config.keepsFirstPop s.draws then (s.setSpNat (top - 2)).nextDraw else s.nextDraw

/-- `Push(imm8)` (R125). -/
def execPush (imm : Byte) (s : State) : Host.Outcome State Fault Refusal :=
  pushWord (zext16 imm) s

/-- `PopRegister(r)` (R130): SP is written first and r after it, so r = SP ends as the popped value
(decision D33; log 20). -/
def execPopRegister (r : Reg) (s : State) : Host.Outcome State Fault Refusal :=
  let top := s.spNat
  match slotBelow s top with
  | .error addr => s.raise (.memoryFault addr)
  | .ok v => .next ((s.setSpNat (top - 2)).setReg r v)

/-- `PushRegister(r)` (R135): r is read before any write, so r = SP pushes the old SP (decision D34;
log 21). -/
def execPushRegister (r : Reg) (s : State) : Host.Outcome State Fault Refusal :=
  pushWord (registerOperand s r) s

/-- `AddStack` (R140): pop a, pop b, push `a +16 b`. -/
def execAddStack (s : State) : Host.Outcome State Fault Refusal :=
  let top := s.spNat
  match slotBelow s top with
  | .error addr => s.raise (.memoryFault addr)
  | .ok a =>
    match slotBelow s (top - 2) with
    | .error addr => (s.halfPopped top).raise (.memoryFault addr)
    | .ok b =>
      match s.write2 ((top : Int) - 4) (add16 a b) with
      | .error (addr, left) => left.raise (.memoryFault addr)
      | .ok t => .next (t.setSpNat (top - 2))

end Sys2Proof.Machine
end

