-- ==== Sys2Proof/Machine/Dispatch.lean ====
section
/-! DEFINITION. The dispatch of a decoded instruction to its one meaning (R114 of spec/40_dispatch.md):
total over the seven tags, with no default arm. -/

namespace Sys2Proof.Machine

/-- `execute(i)` (R110, R114), on the state after the advance. -/
def exec (i : Instr) (s : State) : Host.Outcome State Fault Refusal :=
  match i with
  | .nop => Sys2Proof.Machine.execNop s
  | .push imm => Sys2Proof.Machine.execPush imm s
  | .popRegister r => Sys2Proof.Machine.execPopRegister r s
  | .pushRegister r => Sys2Proof.Machine.execPushRegister r s
  | .addStack => Sys2Proof.Machine.execAddStack s
  | .addRegister r1 r2 => Sys2Proof.Machine.execAddRegister r1 r2 s
  | .signal id => Sys2Proof.Machine.execSignal id s

end Sys2Proof.Machine
end

