-- ==== Sys2Proof/Machine/Step.lean ====
section
/-! DEFINITION. One step of the machine (R110 of spec/40_dispatch.md). -/

namespace Sys2Proof.Machine

/-- `step()` (R110): fetch, advance, decode, then execute. It does not read the halt flag (R31; decision
D13; log 19). -/
def step (s : State) : Host.Outcome State Fault Refusal :=
  match fetch s with
  | .error f => .fault f
  | .ok (i, t) => exec i t

/-- The state with an instruction of `nbits` bits, numbered as spec/opcode_table.json numbers them and 0
above, placed where the next step fetches: the two bytes at PC, low byte first (R70, R111). It stands
for the host's load of a program (R196; log 27). -/
def State.withFetchWord (s : State) (nbits w : Nat) : State :=
  s.placeWord s.pcNat (BitVec.ofNat 16 (w % 2 ^ nbits))

end Sys2Proof.Machine
end

