-- ==== Sys2Proof/Machine/Assembler.lean ====
section
/-! DEFINITION. The assembler (R90 to R101 of spec/30_encoding.md): the textual syntax of the
instructions. A text is the list of the characters its UTF-8 encodes (log 32). -/

namespace Sys2Proof

/-- The name of a register (R95). -/
def Reg.name : Reg → String
  | .a => "A"
  | .b => "B"
  | .c => "C"
  | .m => "M"
  | .sp => "SP"
  | .pc => "PC"
  | .bp => "BP"
  | .flags => "FLAGS"

end Sys2Proof

namespace Sys2Proof.Machine

/-! ### Lines and tokens (R90 to R92) -/

/-- Split at newlines (R90); the characters before the first newline come first. -/
def splitLines : List Char → List (List Char)
  | [] => [[]]
  | c :: rest =>
    match splitLines rest with
    | [] => [[c]]
    | line :: more => if c = '\n' then [] :: line :: more else (c :: line) :: more

/-- Drop one trailing carriage return (R90). -/
def dropCarriageReturn (line : List Char) : List Char :=
  if line.getLast? = some '\r' then line.dropLast else line

/-- The lines of a text (R90; decision D30). -/
def linesOf (text : List Char) : List (List Char) := (splitLines text).map dropCarriageReturn

/-- Whether a character separates tokens (R92): a space and a tab do, printable ASCII does not, and what
the spec leaves unsaid is a free value (log 26). -/
def isSeparator (c : Char) : Bool :=
  if c = ' ' ∨ c = '\t' then true
  else if 0x21 ≤ c.toNat ∧ c.toNat ≤ 0x7E then false
  else Config.otherWhitespace c

/-- The tokens of a line, split on runs of whitespace (R92). -/
def tokensOf : List Char → List (List Char)
  | [] => []
  | c :: rest =>
    if isSeparator c then tokensOf rest
    else
      match rest with
      | [] => [[c]]
      | d :: _ =>
        if isSeparator d then [c] :: tokensOf rest
        else
          match tokensOf rest with
          | [] => [[c]]
          | tok :: more => (c :: tok) :: more

/-! ### Operands (R94, R95) -/

/-- The value of a digit in a base of at most sixteen. -/
def digitValue (base : Nat) (c : Char) : Option Nat :=
  let v :=
    if '0' ≤ c ∧ c ≤ '9' then some (c.toNat - 48)
    else if 'a' ≤ c ∧ c ≤ 'f' then some (c.toNat - 87)
    else if 'A' ≤ c ∧ c ≤ 'F' then some (c.toNat - 55)
    else none
  v.filter (· < base)

/-- The number a run of digits denotes after the digits already read. -/
def digitsFrom (base acc : Nat) : List Char → Option Nat
  | [] => some acc
  | c :: rest =>
    match digitValue base c with
    | none => none
    | some d => digitsFrom base (acc * base + d) rest

/-- One or more digits, as a number. -/
def digits (base : Nat) : List Char → Option Nat
  | [] => none
  | c :: rest => digitsFrom base 0 (c :: rest)

/-- The number a token denotes: hexadecimal or binary after its marker, else decimal (R94). A first character
that is a marker is read as one even where it is a digit too, and as the hexadecimal one where the two
markers are the same, against R94; the spec gives neither result (DESIGN CHOICE, log 35). -/
def literalNumber (p : AsmParams) (token : List Char) : Option Nat :=
  match token with
  | [] => none
  | c :: rest =>
    if c = p.hexPrefix then digits 16 rest
    else if c = p.binPrefix then digits 2 rest
    else digits 10 (c :: rest)

/-- The value of a literal, which must lie in 0..255 (R94; decision D23). -/
def parseLiteral (p : AsmParams) (token : List Char) : Except ParseFault Byte :=
  match literalNumber p token with
  | none => .error (.badLiteral token)
  | some n => if n ≤ 255 then .ok (BitVec.ofNat 8 n) else .error (.badLiteral token)

/-- The register a token names, case included (R95; decision D24). -/
def parseRegister (token : List Char) : Except ParseFault Reg :=
  match Reg.all.find? (fun r => r.name.toList == token) with
  | none => .error (.unknownRegisterName token)
  | some r => .ok r

/-! ### Lines and programs (R92, R93, R96 to R100) -/

/-- A literal operand and what is made of it. -/
def withLiteral (p : AsmParams) (mk : Byte → Instr) (token : List Char) :
    Except ParseFault Instr :=
  match parseLiteral p token with
  | .error e => .error e
  | .ok v => .ok (mk v)

/-- A register operand and what is made of it. -/
def withRegister (mk : Reg → Instr) (token : List Char) : Except ParseFault Instr :=
  match parseRegister token with
  | .error e => .error e
  | .ok r => .ok (mk r)

/-- Two register operands, checked from left to right (R98), and what is made of them. -/
def withRegisters (mk : Reg → Reg → Instr) (token1 token2 : List Char) : Except ParseFault Instr :=
  match parseRegister token1 with
  | .error e => .error e
  | .ok r1 => withRegister (mk r1) token2

/-- The operands of a line whose mnemonic is known: the count must be the registry's arity (R93), and
then each operand is read (R94 to R96). -/
def parseOperands (p : AsmParams) (m : OpcodeMap) (t : Tag) (operands : List (List Char)) :
    Except ParseFault Instr :=
  let wrongCount : Except ParseFault Instr :=
    .error (.arity (registryRow m t).arity operands.length)
  match t, operands with
  | .nop, [] => .ok .nop
  | .nop, _ :: _ => wrongCount
  | .push, [x] => withLiteral p .push x
  | .push, _ => wrongCount
  | .popRegister, [x] => withRegister .popRegister x
  | .popRegister, _ => wrongCount
  | .pushRegister, [x] => withRegister .pushRegister x
  | .pushRegister, _ => wrongCount
  | .addStack, [] => .ok .addStack
  | .addStack, _ :: _ => wrongCount
  | .addRegister, [x, y] => withRegisters .addRegister x y
  | .addRegister, _ => wrongCount
  | .signal, [x] => withLiteral p .signal x
  | .signal, _ => wrongCount

/-- One line: nothing for a skipped line (R91), an instruction, or the first check that fails, in the
order mnemonic, arity, operands (R98). -/
def parseLine (p : AsmParams) (m : OpcodeMap) (line : List Char) :
    Except ParseFault (Option Instr) :=
  match tokensOf line with
  | [] => .ok none
  | token :: operands =>
    if token.head? = some p.comment then .ok none
    else
      match tagOfMnemonic m token with
      | none => .error (.unknownMnemonic token)
      | some t =>
        match parseOperands p m t operands with
        | .error e => .error e
        | .ok i => .ok (some i)

/-- Lines from a line number on, up to the first that gives a parse fault (R98; decisions D31, D35). -/
def parseLines (p : AsmParams) (m : OpcodeMap) (number : Nat) :
    List (List Char) → Except Failure (List Instr)
  | [] => .ok []
  | line :: rest =>
    match parseLine p m line with
    | .error e => .error (.parseFault number e)
    | .ok found =>
      match parseLines p m (number + 1) rest with
      | .error e => .error e
      | .ok is => .ok (found.toList ++ is)

/-- The instructions of a text, in file order; lines are numbered from 1 (R98, R100). -/
def parseText (p : AsmParams) (m : OpcodeMap) (text : List Char) : Except Failure (List Instr) :=
  parseLines p m 1 (linesOf text)

/-- The image of a list of instructions: their words in order, low byte first (R88, R100). -/
def imageOf (cfg : Config) (is : List Instr) : List Byte := is.flatMap (encodeBytes cfg)

/-- Assembly (R98, R100): the image, or the parse fault and no image. -/
def assemble (p : AsmParams) (cfg : Config) (text : List Char) : Except Failure (List Byte) :=
  match parseText p cfg.opcodes text with
  | .error e => .error e
  | .ok is => .ok (imageOf cfg is)

/-! ### The text of an instruction (R97) -/

/-- The decimal digits of a number below 1000, without leading zeros. -/
def decimalText (n : Nat) : List Char :=
  let digit (k : Nat) : Char := Char.ofNat (48 + k)
  if n < 10 then [digit n]
  else if n < 100 then [digit (n / 10), digit (n % 10)]
  else [digit (n / 100), digit (n / 10 % 10), digit (n % 10)]

/-- The tokens after the mnemonic of an instruction's line, literals in decimal (R94 to R97). -/
def operandTexts : Instr → List (List Char)
  | .nop => []
  | .push v => [decimalText v.toNat]
  | .popRegister r => [r.name.toList]
  | .pushRegister r => [r.name.toList]
  | .addStack => []
  | .addRegister r1 r2 => [r1.name.toList, r2.name.toList]
  | .signal id => [decimalText id.toNat]

/-- A line of R97's grammar for an instruction: its mnemonic and its operands, one space between. -/
def instrText (m : OpcodeMap) (i : Instr) : List Char :=
  (registryRow m i.tag).mnemonic.toList ++ (operandTexts i).flatMap (fun x => ' ' :: x)

end Sys2Proof.Machine
end

