-- ==== Sys2Proof/Machine/HostOps.lean ====
section
/-! DEFINITION. The host interface (R41 of spec/10_state.md), the bulk memory operations (R51, R52 of
spec/20_memory.md), the launch (R196, R197), and the run loop and the kinds of run (R199 to R201
of spec/70_reset_and_hazards.md). -/

namespace Sys2Proof.Machine

/-! ### Bulk operations (R51, R52) -/

/-- The forward, byte-by-byte copy of R51: the state written, or the first address out of range. -/
def State.copyForward (s : State) (src dst : Int) : Nat → Except Int State
  | 0 => .ok s
  | n + 1 =>
    match s.read src with
    | none => .error src
    | some b =>
      match s.write dst b with
      | none => .error dst
      | some t => State.copyForward t (src + 1) (dst + 1) n

/-- Bytes written to rising addresses (R52): the state written, or the first address out of range. -/
def State.writeBytes (s : State) (dst : Int) : List Byte → Except Int State
  | [] => .ok s
  | b :: rest =>
    match s.write dst b with
    | none => .error dst
    | some t => State.writeBytes t (dst + 1) rest

/-- `n` bytes from `dst`, those in range, each at the free value of its offset. -/
def State.smearFrom (s : State) (draw : Nat) (dst : Int) : Nat → State
  | 0 => s
  | n + 1 => (State.smearFrom s draw dst n).poke (dst + n) (Config.bulkByte draw n)

/-- The state a failed bulk operation leaves: each in-range destination byte holds an unspecified byte,
a draw, and all other bytes are unchanged (R51, R52; decision D27; log 8). -/
def State.smeared (s : State) (dst : Int) (n : Nat) : State :=
  (s.smearFrom s.draws dst n).nextDraw

/-- `copy(from, to, n)` (R51): the state, or the failing address and the state left. The spec gives no type
for n; here it is any natural number (DESIGN CHOICE, log 34). -/
def State.copy (s : State) (src dst : Int) (n : Nat) : Except (Int × State) State :=
  match s.copyForward src dst n with
  | .ok t => .ok t
  | .error addr => .error (addr, s.smeared dst n)

/-- `load_image(bytes, base)` (R52): the state, or the failing address and the state left. -/
def State.loadImage (s : State) (base : Int) (bytes : List Byte) : Except (Int × State) State :=
  match s.writeBytes base bytes with
  | .ok t => .ok t
  | .error addr => .error (addr, s.smeared base bytes.length)

/-! ### The operations the block offers its host (R41) -/

/-- The host operations: "these operations and no others" (R41). Addresses are 16 bits wide (R60; log 31);
the n of `copy`, whose type the spec does not give, is any natural number (DESIGN CHOICE, log 34). -/
inductive HostOp where
  | construct
  | loadImage (bytes : List Byte) (base : Word)
  | memRead (addr : Word)
  | memWrite (addr : Word) (v : Byte)
  | read2 (addr : Word)
  | write2 (addr v : Word)
  | copy (src dst : Word) (n : Nat)
  | getReg (r : Reg)
  | setReg (r : Reg) (v : Word)
  | registerHandler (id : Byte) (h : Handler)
  | getHalt
  | step
deriving DecidableEq, Repr

/-- What a successful host operation carries (R11). -/
inductive HostReply where
  | done
  | byte (v : Byte)
  | word (v : Word)
  | flag (b : Bool)
deriving DecidableEq, Repr

/-- What a host operation returns (R11): success or a failure value, with the state it leaves; a step
whose handler never returns leaves nothing (R164). -/
inductive HostResult where
  | success (reply : HostReply) (s : State)
  | failure (why : Failure) (s : State)
  | hang (id : Byte)
  | refused (why : Refusal)
deriving DecidableEq, Repr

/-- A write operation's result as the host sees it: a memory fault at the first address out of range. -/
def HostResult.ofWrite : Except (Int × State) State → HostResult
  | .ok t => .success .done t
  | .error (addr, left) => .failure (.memoryFault addr) left

/-- A step's outcome as the host sees it. -/
def HostResult.ofStep : Host.Outcome State Fault Refusal → HostResult
  | .next t => .success .done t
  | .fault (.failed why left) => .failure why left
  | .fault (.handlerHang id) => .hang id
  | .refused why => .refused why

/-- One host operation (R41), an atomic transaction on the state. `construct` makes a new machine with the
same parameters (R195; log 33); `registerHandler` replaces any earlier entry, and nothing removes an
entry or writes halt (decision D14). -/
def hostOp (op : HostOp) (s : State) : HostResult :=
  match op with
  | .construct => .success .done { State.construct s.cfg with draws := s.draws }
  | .loadImage bytes base => .ofWrite (s.loadImage base.toNat bytes)
  | .memRead addr =>
    match s.read addr.toNat with
    | none => .failure (.memoryFault addr.toNat) s
    | some b => .success (.byte b) s
  | .memWrite addr v =>
    match s.write addr.toNat v with
    | none => .failure (.memoryFault addr.toNat) s
    | some t => .success .done t
  | .read2 addr =>
    match s.read2 addr.toNat with
    | .error bad => .failure (.memoryFault bad) s
    | .ok w => .success (.word w) s
  | .write2 addr v => .ofWrite (s.write2 addr.toNat v)
  | .copy src dst n => .ofWrite (s.copy src.toNat dst.toNat n)
  | .getReg r => .success (.word (s.getReg r)) s
  | .setReg r v => .success .done (s.setReg r v)
  | .registerHandler id h => .success .done (s.setEntry id (some h))
  | .getHalt => .success (.flag s.halt) s
  | .step => .ofStep (step s)

/-! ### Launch and run (R196 to R201) -/

/-- The setup of the run entry point (R196, R197): the image at LOAD_BASE of a constructed machine, PC at
the base, SP at INITIAL_SP, the halt handler at HALT_SIGNAL_ID (log 24). -/
def launch (cfg : Config) (p : LaunchParams) (image : List Byte) : HostResult :=
  match (State.construct cfg).loadImage p.loadBase.toNat image with
  | .error (addr, left) => .failure (.memoryFault addr) left
  | .ok t =>
    .success .done
      (((t.setReg .pc p.loadBase).setReg .sp p.initialSp).setEntry p.haltSignalId (some .halt))

/-- How the run loop ends (R199, R201). `halted` and `faulted` are R201's kinds of those names; `hang` is the
second form of its Hang, a handler with no outcome. `cutShort` is a run that a host's own step limit
ended, "none of the three kinds"; the infinite form of Hang is `State.RunHangs`. -/
inductive RunEnd where
  | halted (s : State)
  | faulted (why : Failure) (s : State)
  | hang (id : Byte)
  | cutShort (s : State)
  | refused (why : Refusal)
deriving DecidableEq, Repr

/-- The run loop (R199), with a host's limit on the number of steps (R182, R201), under the default policy of
R200: it stops at the first failed step, and halt is checked after each step, never before the first. -/
def runLoop : Nat → State → RunEnd
  | 0, s => .cutShort s
  | n + 1, s =>
    match step s with
    | .next t => if t.halt then .halted t else runLoop n t
    | .fault (.failed why left) => .faulted why left
    | .fault (.handlerHang id) => .hang id
    | .refused why => .refused why

/-- What the host does after a failed step (R200): stop, the default, or go on from the state left. -/
inductive FaultPolicy where
  | stop
  | goOn
deriving DecidableEq, Repr

/-- The ends of the runs a host makes one after another under a policy, in order, with one limit on all their
steps. A run ends at its first failed step, whatever the state (R201); a host that goes on then "calls
`step()` again on the state the fault left" (R177), which begins the next run (log 30). -/
def runs (policy : FaultPolicy) : Nat → State → List RunEnd
  | 0, s => [.cutShort s]
  | n + 1, s =>
    match step s with
    | .next t => if t.halt then [.halted t] else runs policy n t
    | .fault (.failed why left) =>
      .faulted why left ::
        match policy with
        | .stop => []
        | .goOn => runs policy n left
    | .fault (.handlerHang id) => [.hang id]
    | .refused why => [.refused why]

/-! ### The kinds of run (R201), with no limit on the steps -/

/-- `k` steps from `s` all succeed and reach `u`, with halt false after each. -/
def State.Quietly (s : State) (k : Nat) (u : State) : Prop :=
  Sys2Proof.core.run k s = .next u ∧
    ∀ j, j < k → ∃ v : State, Sys2Proof.core.run (j + 1) s = .next v ∧ v.halt = false

/-- Halted (R201): every step succeeds, and after the last one halt is true. -/
def State.RunHalts (s t : State) : Prop := ∃ k u, s.Quietly k u ∧ step u = .next t ∧ t.halt = true

/-- Faulted (R201): every step succeeds but the last, which returns a failure. -/
def State.RunFaults (s : State) (why : Failure) (left : State) : Prop :=
  ∃ k u, s.Quietly k u ∧ step u = .fault (.failed why left)

/-- Hang (R201): steps without end that succeed with halt false after each, or a `Signal` step whose handler
has no outcome (R164). -/
def State.RunHangs (s : State) : Prop :=
  (∀ k, ∃ u, s.Quietly k u) ∨ ∃ k u id, s.Quietly k u ∧ step u = .fault (.handlerHang id)

end Sys2Proof.Machine
end

