-- ==== Sys2Proof/Safety.lean ====
section
/-! DEFINITION. What statements about the machine are made of: the invariant, what a run observes, and
sequences of pushes and pops. -/

namespace Sys2Proof

/-- The registers with no architected role (R24). -/
def Reg.isPlain : Reg → Bool
  | .a => true
  | .b => true
  | .c => true
  | .m => true
  | .sp => false
  | .pc => false
  | .bp => true
  | .flags => false

/-- Whether an instruction names a register as an operand (R22, R72). -/
def Instr.names (i : Instr) (r : Reg) : Bool :=
  match i with
  | .nop => false
  | .push _ => false
  | .popRegister r1 => r1 == r
  | .pushRegister r1 => r1 == r
  | .addStack => false
  | .addRegister r1 r2 => r1 == r || r2 == r
  | .signal _ => false

/-- Whether an instruction writes a register that it names (R22). -/
def Instr.writesNamed (i : Instr) (r : Reg) : Bool :=
  match i with
  | .nop => false
  | .push _ => false
  | .popRegister r1 => r1 == r
  | .pushRegister _ => false
  | .addStack => false
  | .addRegister r1 _ => r1 == r
  | .signal _ => false

/-- Whether an instruction calls the host (R165). -/
def Instr.isSignal : Instr → Bool
  | .nop => false
  | .push _ => false
  | .popRegister _ => false
  | .pushRegister _ => false
  | .addStack => false
  | .addRegister _ _ => false
  | .signal _ => true

/-- Whether an instruction is one of the two pushes (R143). -/
def Instr.isPush : Instr → Bool
  | .nop => false
  | .push _ => true
  | .popRegister _ => false
  | .pushRegister _ => true
  | .addStack => false
  | .addRegister _ _ => false
  | .signal _ => false

/-- The bits of a word that the shape of an instruction does not use (R71, R83). -/
def Instr.unusedBits : Instr → Word
  | .nop => 0xFF00#16
  | .push _ => 0x0000#16
  | .popRegister _ => 0xF000#16
  | .pushRegister _ => 0xF000#16
  | .addStack => 0xFF00#16
  | .addRegister _ _ => 0x0000#16
  | .signal _ => 0x0000#16

/-- The column `mask` of R77's table, and the masks it gives for RESERVED_BITS_STRICT = false. -/
def patternMask (strict : Bool) : Tag → Word
  | .nop => if strict then 0xFFFF#16 else 0x00FF#16
  | .push => 0x00FF#16
  | .popRegister => if strict then 0xF8FF#16 else 0x08FF#16
  | .pushRegister => if strict then 0xF8FF#16 else 0x08FF#16
  | .addStack => if strict then 0xFFFF#16 else 0x00FF#16
  | .addRegister => 0x88FF#16
  | .signal => 0x00FF#16

/-- The column `match` of R77's table. -/
def patternMatch : Tag → Word
  | .nop => 0x0000#16
  | .push => 0x0001#16
  | .popRegister => 0x0002#16
  | .pushRegister => 0x0003#16
  | .addStack => 0x0004#16
  | .addRegister => 0x0005#16
  | .signal => 0x0006#16

end Sys2Proof

namespace Sys2Proof.Machine

/-- The invariant of the machine: the parameters are ones the spec admits (R7); memory is in canonical
form and lists only backed addresses (R34); so is the handler table (R33). -/
def State.Inv (s : State) : Prop :=
  s.cfg.wf ∧ Mem.wf s.mem ∧ Mem.within s.cfg.memSize s.mem ∧ Table.wf s.table

/-- An outcome with its states changed by `f`: the next state, or the state a failure leaves. -/
def mapStates (f : State → State) :
    Host.Outcome State Fault Refusal → Host.Outcome State Fault Refusal
  | .next t => .next (f t)
  | .fault (.failed why left) => .fault (.failed why (f left))
  | .fault (.handlerHang id) => .fault (.handlerHang id)
  | .refused why => .refused why

/-- The halt flag, the handler table, the parameters and the number of draws are unchanged. -/
def State.SameControl (s t : State) : Prop :=
  t.halt = s.halt ∧ t.table = s.table ∧ t.cfg = s.cfg ∧ t.draws = s.draws

/-- Every register but those in the list is unchanged. -/
def State.SameRegsBut (s t : State) (rs : List Reg) : Prop :=
  ∀ r, r ∉ rs → t.getReg r = s.getReg r

/-- Every byte of memory but the two of the word at `addr` is unchanged. -/
def State.SameMemBut (s t : State) (addr : Int) : Prop :=
  ∀ k : Nat, (k : Int) ≠ addr → (k : Int) ≠ addr + 1 → t.byteAt k = s.byteAt k

/-- Every byte of memory is unchanged. -/
def State.SameMem (s t : State) : Prop := ∀ k : Nat, t.byteAt k = s.byteAt k

/-- The two bytes of memory at `k`, the low byte first, as a word (R55). -/
def State.wordAt (s : State) (k : Nat) : Word := wordOfBytes (s.byteAt k) (s.byteAt (k + 1))

/-- Whether `Signal` for an id would run host code (R155). -/
def State.callsHost (s : State) (i : Instr) : Bool :=
  match i with
  | .nop => false
  | .push _ => false
  | .popRegister _ => false
  | .pushRegister _ => false
  | .addStack => false
  | .addRegister _ _ => false
  | .signal id =>
    match s.entry id with
    | none => false
    | some .halt => false
    | some (.host _) => true

/-- The word an instruction pushes in a state, for the two pushes (R125, R135). -/
def pushedValue (s : State) : Instr → Word
  | .push v => zext16 v
  | .pushRegister r => s.getReg r
  | .nop => 0#16
  | .popRegister _ => 0#16
  | .addStack => 0#16
  | .addRegister _ _ => 0#16
  | .signal _ => 0#16

/-- Run pushes one after another; the state reached and the values pushed, in order. -/
def pushAll : List Instr → State → Option (State × List Word)
  | [], s => some (s, [])
  | i :: rest, s =>
    match exec i s with
    | .next t => (pushAll rest t).map (fun r => (r.1, pushedValue s i :: r.2))
    | .fault _ => none
    | .refused _ => none

/-- Pop into registers one after another; the state reached and the values popped, in order. -/
def popAll : List Reg → State → Option (State × List Word)
  | [], s => some (s, [])
  | r :: rest, s =>
    match exec (.popRegister r) s with
    | .next t => (popAll rest t).map (fun q => (q.1, t.getReg r :: q.2))
    | .fault _ => none
    | .refused _ => none

end Sys2Proof.Machine
end

