-- ==== Sys2Proof/Certificates/Slice0/Obligations.lean ====
section
/-! DEFINITION. The statements for the provers. A statement whose docstring says STATED formalises the whole
of the rule it names; one that says DERIVED rests on a decision or an inference that the spec marks as
its own, or on the log entry named, or states a part of a rule. The state an `exec` takes is the one
after the advance (R112). -/

open Sys2Proof Sys2Proof.Machine

/-! ### Encoding -/

/-- STATED, R70: an instruction is one word of two consecutive bytes, low byte first; the low byte is the
opcode and the high byte the operand byte. -/
def Obligations.InstructionWordIsTwoLittleEndianBytes : Prop :=
  (∀ (s : State) (a : Nat), a + 1 < s.cfg.memSize →
    ∃ w, s.read2 a = .ok w ∧
      w.toNat = (s.byteAt a).toNat + 256 * (s.byteAt (a + 1)).toNat ∧
      lowByte w = s.byteAt a ∧ highByte w = s.byteAt (a + 1)) ∧
  (∀ cfg w i, decode cfg w = .ok i → codeOf cfg.opcodes i.tag = lowByte w) ∧
  ∀ cfg i, ∃ lo hi, encodeBytes cfg i = [lo, hi] ∧ lo = codeOf cfg.opcodes i.tag ∧
    hi = i.operandByte ∧ (encode cfg i).toNat = lo.toNat + 256 * hi.toNat

/-- STATED, R72: the shape and arity of each tag, and the operands of a word that decodes are the fields
its shape gives them. -/
def Obligations.OperandsAreTheFieldsOfTheShape : Prop :=
  (∀ m, (registry m).map (fun row => (row.tag, row.mnemonic, row.shape, row.arity)) =
    [(Tag.nop, "Nop", Shape.bare, 0), (Tag.push, "Push", Shape.immediate, 1),
     (Tag.popRegister, "PopRegister", Shape.register, 1),
     (Tag.pushRegister, "PushRegister", Shape.register, 1),
     (Tag.addStack, "AddStack", Shape.bare, 0),
     (Tag.addRegister, "AddRegister", Shape.register, 2),
     (Tag.signal, "Signal", Shape.immediate, 1)]) ∧
  ∀ cfg w i, decode cfg w = .ok i →
    match i with
    | .nop => True
    | .push v => v.toNat = w.toNat / 256
    | .popRegister r => r.ord = w.toNat / 256 % 16
    | .pushRegister r => r.ord = w.toNat / 256 % 16
    | .addStack => True
    | .addRegister r1 r2 => r1.ord = w.toNat / 256 % 16 ∧ r2.ord = w.toNat / 4096
    | .signal id => id.toNat = w.toNat / 256

/-- STATED, R74: a field value 0..7 names the register of that ordinal; a value 8..15 names none, and
decode fails on it (which fault it reports is DecodeReportsTheFirstFailingCheck's). -/
def Obligations.RegisterFieldNamesTheRegisterOfItsOrdinal : Prop :=
  (∀ f r, Reg.ofField f = some r ↔ r.ord = f.toNat) ∧
  (∀ f : BitVec 4, f.toNat < 8 → ∃ r, Reg.ofField f = some r) ∧
  (∀ f : BitVec 4, 8 ≤ f.toNat → Reg.ofField f = none) ∧
  ∀ cfg w t, tagOfCode cfg.opcodes (lowByte w) = some t →
    (t = .popRegister ∨ t = .pushRegister ∨ t = .addRegister → 8 ≤ (reg1Field w).toNat →
      ∃ e, decode cfg w = .error e) ∧
    (t = .addRegister → 8 ≤ (reg2Field w).toNat → ∃ e, decode cfg w = .error e)

/-- STATED, R75: no two tags share a code or a mnemonic, and the conversions derived from the registry
agree with one another, for every OPCODE_MAP that is injective; the shape and arity of a row are those by
which the decoder reads the operands of its tag. -/
def Obligations.RegistryConversionsAgree : Prop :=
  ∀ m : OpcodeMap, m.injective →
    (∀ t, tagOfCode m (codeOf m t) = some t) ∧
    (∀ op t, tagOfCode m op = some t → codeOf m t = op) ∧
    (∀ t u, codeOf m t = codeOf m u → t = u) ∧
    (∀ t, tagOfMnemonic m (registryRow m t).mnemonic.toList = some t) ∧
    (∀ t u, (registryRow m t).mnemonic = (registryRow m u).mnemonic → t = u) ∧
    (∀ t, (registryRow m t).tag = t) ∧
    ∀ t, match (registryRow m t).shape with
      | .bare => (registryRow m t).arity = 0 ∧
          ∃ i : Instr, i.tag = t ∧ ∀ strict w, decodeOperands strict w t = decodeBare strict w i
      | .immediate => (registryRow m t).arity = 1 ∧
          ∃ mk : Byte → Instr, (∀ v, (mk v).tag = t) ∧
            ∀ strict w, decodeOperands strict w t = .ok (mk (highByte w))
      | .register =>
          ((registryRow m t).arity = 1 ∧ ∃ mk : Reg → Instr, (∀ r, (mk r).tag = t) ∧
            ∀ strict w, decodeOperands strict w t = decodeOneRegister strict w mk) ∨
          ((registryRow m t).arity = 2 ∧ ∃ mk : Reg → Reg → Instr, (∀ r1 r2, (mk r1 r2).tag = t) ∧
            ∀ strict w, decodeOperands strict w t = decodeTwoRegisters w mk)

/-- STATED, R73: the only immediate is the operand byte, neither shifted nor scaled; `Push` widens it with
zero upper bits and `Signal` uses it unchanged as the id. -/
def Obligations.ImmediateIsTheZeroExtendedOperandByte : Prop :=
  (∀ m t, (registryRow m t).shape = .immediate ↔ t = .push ∨ t = .signal) ∧
  (∀ cfg w, tagOfCode cfg.opcodes (lowByte w) = some .push →
    decode cfg w = .ok (.push (highByte w))) ∧
  (∀ cfg w, tagOfCode cfg.opcodes (lowByte w) = some .signal →
    decode cfg w = .ok (.signal (highByte w))) ∧
  (∀ (s : State) v, s.spNat + 2 ≤ 0xFFFF → s.spNat + 1 < s.cfg.memSize →
    ∃ t, exec (.push v) s = .next t ∧ (t.wordAt s.spNat).toNat = v.toNat) ∧
  ∀ (s : State) id, s.entry id = none →
    exec (.signal id) s = .fault (.failed (.dispatchFault (.unregisteredSignal id)) s)

/-- DERIVED, the first sentence of R85 (E1): decoding an encoded instruction gives it back, for every
instruction and every injective OPCODE_MAP, in either mode of RESERVED_BITS_STRICT. -/
def Obligations.DecodeEncodeRoundTrip : Prop :=
  ∀ cfg : Config, cfg.opcodes.injective → ∀ i, decode cfg (encode cfg i) = .ok i

/-- DERIVED, the rest of R85 (an inference the spec marks as its own): encoding a decoded word clears the
bits its shape does not use, and gives the word back in strict mode. -/
def Obligations.EncodeDecodeRoundTrip : Prop :=
  ∀ cfg w i, decode cfg w = .ok i →
    encode cfg i = w &&& ~~~ i.unusedBits ∧ (cfg.strict = true → encode cfg i = w)

/-- DERIVED, R77's table (an inference the spec marks as its own, under the default codes of decision D1):
a word decodes to an instruction of a tag exactly when it fits the tag's pattern. -/
def Obligations.LegalWordsFitThePatternTable : Prop :=
  ∀ (n : Nat) (strict : Bool) w t,
    (∃ i, decode ⟨n, OpcodeMap.default, strict⟩ w = .ok i ∧ i.tag = t) ↔
      w &&& patternMask strict t = patternMatch t

/-- DERIVED, R82 (decisions D3 and D4; log 15): which check a refused word reports. -/
def Obligations.DecodeReportsTheFirstFailingCheck : Prop :=
  ∀ cfg w,
    (tagOfCode cfg.opcodes (lowByte w) = none →
      decode cfg w = .error (.unknownOpcode (lowByte w))) ∧
    (∀ t, tagOfCode cfg.opcodes (lowByte w) = some t → t = .nop ∨ t = .addStack →
      ((∃ i, decode cfg w = .ok i ∧ i.tag = t) ↔ (cfg.strict = true → w.toNat / 256 = 0)) ∧
      (cfg.strict = true → w.toNat / 256 ≠ 0 → decode cfg w = .error (.reservedBitsSet w))) ∧
    (∀ t, tagOfCode cfg.opcodes (lowByte w) = some t → t = .popRegister ∨ t = .pushRegister →
      if 8 ≤ w.toNat / 256 % 16 then decode cfg w = .error (.unknownRegister (reg1Field w))
      else if cfg.strict = true ∧ w.toNat / 4096 ≠ 0 then
        decode cfg w = .error (.reservedBitsSet w)
      else ∃ i, decode cfg w = .ok i ∧ i.tag = t) ∧
    (tagOfCode cfg.opcodes (lowByte w) = some .addRegister →
      if 8 ≤ w.toNat / 256 % 16 then decode cfg w = .error (.unknownRegister (reg1Field w))
      else if 8 ≤ w.toNat / 4096 then decode cfg w = .error (.unknownRegister (reg2Field w))
      else ∃ i, decode cfg w = .ok i ∧ i.tag = .addRegister)

/-- DERIVED, E1 and the decode vectors: a few words, written out, under the default codes (decision D1; log
2), the register ordinals (decision D2; log 14) and the strict default (decision D3; log 3). -/
def Obligations.SampleWordsDecode : Prop :=
  decodeTableWord 16 0x0000 = some .nop ∧ decodeTableWord 16 0x0A01 = some (.push 10#8) ∧
  decodeTableWord 16 0x0702 = some (.popRegister .flags) ∧
  decodeTableWord 16 0x0403 = some (.pushRegister .sp) ∧
  decodeTableWord 16 0x0004 = some .addStack ∧
  decodeTableWord 16 0x2505 = some (.addRegister .pc .c) ∧
  decodeTableWord 16 0xF006 = some (.signal 0xF0#8) ∧
  decodeTableWord 16 0x0802 = none ∧ decodeTableWord 16 0x8004 = none ∧
  decodeTableWord 16 0x00FF = none

/-- STATED, R88: every instruction is two bytes, a program image is a sequence of words, and instruction i
of an image loaded at `base` sits at `base + 2i`. -/
def Obligations.ProgramWordsSitAtBasePlusTwoI : Prop :=
  ∀ (s : State) (is : List Instr) (base : Nat), base + 2 * is.length ≤ s.cfg.memSize →
    (imageOf s.cfg is).length = 2 * is.length ∧
    ∃ t, s.loadImage base (imageOf s.cfg is) = .ok t ∧
      ∀ k i, is[k]? = some i → t.read2 ((base + 2 * k : Nat) : Int) = .ok (encode s.cfg i)

/-! ### Memory -/

/-- STATED, R48: a byte write in range writes that byte and nothing else, and the byte reads back; out of
range it fails and changes nothing. -/
def Obligations.ByteWriteThenRead : Prop :=
  ∀ (s : State) (v : Byte),
    (∀ a : Int, 0 ≤ a → a < s.cfg.memSize →
      ∃ t, s.write a v = some t ∧ t.read a = some v ∧
        (∀ b, b ≠ a → t.read b = s.read b) ∧ t.regs = s.regs ∧ s.SameControl t) ∧
    (∀ a : Int, a < 0 ∨ (s.cfg.memSize : Int) ≤ a → s.write a v = none) ∧
    ∀ a : Word, s.cfg.memSize ≤ a.toNat →
      hostOp (.memWrite a v) s = .failure (.memoryFault a.toNat) s

/-- STATED, R53: memory is zero-initialised and bounds-checks every access; a read has no side effect, and
writing the same byte twice leaves the same state as writing it once. -/
def Obligations.MemoryIsZeroedAndIdempotent : Prop :=
  (∀ (cfg : Config) (a : Int), 0 ≤ a → a < cfg.memSize →
    (State.construct cfg).read a = some 0#8) ∧
  (∀ (s : State) (a : Int) (v : Byte),
    ((s.read a).isSome = true ↔ 0 ≤ a ∧ a < s.cfg.memSize) ∧
    ((s.write a v).isSome = true ↔ 0 ≤ a ∧ a < s.cfg.memSize)) ∧
  (∀ (s : State) (a : Word), hostOp (.memRead a) s = .failure (.memoryFault a.toNat) s ∨
    ∃ b, hostOp (.memRead a) s = .success (.byte b) s) ∧
  ∀ (s t : State) (a : Int) (v : Byte), s.write a v = some t → t.write a v = some t

/-- DERIVED, R49 (decision D7; log 13): a 16-bit read gives the little-endian word, or fails at the first of
its two addresses that is out of range; the second never wraps. -/
def Obligations.WordReadChecksBothBytes : Prop :=
  ∀ (s : State) (a : Int),
    (0 ≤ a → a + 1 < s.cfg.memSize →
      s.read2 a = .ok (BitVec.ofNat 16
        ((s.byteAt a.toNat).toNat + 256 * (s.byteAt (a.toNat + 1)).toNat))) ∧
    (a < 0 ∨ (s.cfg.memSize : Int) ≤ a → s.read2 a = .error a) ∧
    (0 ≤ a → a + 1 = s.cfg.memSize → s.read2 a = .error (a + 1))

/-- DERIVED, R50 (decision D8; log 6): a 16-bit write reads back and changes two bytes; a first address out of
range changes nothing; a second one out of range leaves the first byte old or written, for whatever
the free value `Config.storesLowByte` is, and no other byte changed. -/
def Obligations.WordWriteThenRead : Prop :=
  ∀ (s : State) (a : Int) (v : Word),
    (0 ≤ a → a + 1 < s.cfg.memSize →
      ∃ t, s.write2 a v = .ok t ∧ t.read2 a = .ok v ∧ s.SameMemBut t a ∧ t.regs = s.regs ∧
        s.SameControl t) ∧
    (a < 0 ∨ (s.cfg.memSize : Int) ≤ a → s.write2 a v = .error (a, s)) ∧
    (0 ≤ a → a + 1 = s.cfg.memSize →
      ∃ left, s.write2 a v = .error (a + 1, left) ∧
        (left.byteAt a.toNat = s.byteAt a.toNat ∨ left.byteAt a.toNat = lowByte v) ∧
        (∀ k : Nat, (k : Int) ≠ a → left.byteAt k = s.byteAt k) ∧ left.regs = s.regs ∧
        left.halt = s.halt ∧ left.table = s.table ∧ left.cfg = s.cfg)

/-- STATED, R55: little-endian for data and for instruction fetch. -/
def Obligations.ByteOrderIsLittleEndian : Prop :=
  (∀ (s : State) (a : Int) (v : Word), 0 ≤ a → a + 1 < s.cfg.memSize →
    (∃ t, s.write2 a v = .ok t ∧ t.read a = some (lowByte v) ∧ t.read (a + 1) = some (highByte v)) ∧
    ∃ w, s.read2 a = .ok w ∧ s.read a = some (lowByte w) ∧ s.read (a + 1) = some (highByte w)) ∧
  ∀ (s u : State) i, fetch s = .ok (i, u) →
    codeOf s.cfg.opcodes i.tag = s.byteAt s.pcNat ∧
    decode s.cfg (wordOfBytes (s.byteAt s.pcNat) (s.byteAt (s.pcNat + 1))) = .ok i

/-- DERIVED, R51's loop: a copy whose addresses are all in range completes, and because it runs forward
byte by byte an overlapping one repeats the bytes below its destination. -/
def Obligations.CopyRunsForward : Prop :=
  ∀ (s : State) (src dst n : Nat), src + n ≤ s.cfg.memSize → dst + n ≤ s.cfg.memSize →
    ∃ t, s.copy src dst n = .ok t ∧
      (∀ j, j < n →
        t.byteAt (dst + j) = s.byteAt (src + if src < dst then j % (dst - src) else j)) ∧
      (∀ k, k < dst ∨ dst + n ≤ k → t.byteAt k = s.byteAt k) ∧
      t.regs = s.regs ∧ s.SameControl t

/-- DERIVED, R51 and R52 (decision D27; log 8): a bulk operation that meets an address out of range fails at
the first one and changes no byte but those of its destination, for whatever bytes the free value
`Config.bulkByte` leaves there. -/
def Obligations.BulkOperationsFailSoftly : Prop :=
  (∀ (s : State) (src dst n : Nat), 0 < n → s.cfg.memSize < max src dst + n →
    ∃ left, s.copy src dst n =
        .error ((if s.cfg.memSize ≤ src then (src : Int)
          else ((max dst s.cfg.memSize : Nat) : Int)), left) ∧
      (∀ k, k < dst ∨ dst + n ≤ k → left.byteAt k = s.byteAt k) ∧ left.regs = s.regs ∧
      left.halt = s.halt ∧ left.table = s.table ∧ left.cfg = s.cfg) ∧
  ∀ (s : State) (bytes : List Byte) (base : Nat), bytes ≠ [] →
    s.cfg.memSize < base + bytes.length →
    ∃ left, s.loadImage base bytes = .error (((max base s.cfg.memSize : Nat) : Int), left) ∧
      (∀ k, k < base ∨ base + bytes.length ≤ k → left.byteAt k = s.byteAt k) ∧
      left.regs = s.regs ∧ left.halt = s.halt ∧ left.table = s.table ∧ left.cfg = s.cfg

/-! ### Reset -/

/-- STATED, R195: construction gives eight zero registers, zero memory, halt false and an empty table, so the
entry point is address 0 with SP = 0; to reset, the host constructs a new machine. -/
def Obligations.ConstructionState : Prop :=
  State.reset = State.construct State.reset.cfg ∧
  ∀ cfg : Config,
    (∀ r, (State.construct cfg).getReg r = 0#16) ∧
    (∀ k, (State.construct cfg).byteAt k = 0#8) ∧
    (State.construct cfg).halt = false ∧
    (∀ id, (State.construct cfg).entry id = none) ∧
    (State.construct cfg).pcNat = 0 ∧ (State.construct cfg).spNat = 0 ∧
    ∀ s : State, s.cfg = cfg → ∃ t, hostOp .construct s = .success .done t ∧
      t.regs = (State.construct cfg).regs ∧ t.mem = (State.construct cfg).mem ∧
      t.halt = false ∧ t.table = (State.construct cfg).table

/-! ### The step -/

/-- DERIVED, R110 to R114 (the bound on PC is decision D6; log 12): when the word at PC decodes, the step is
that instruction's execution on the state whose PC is two further and which is otherwise the same. -/
def Obligations.StepRunsTheDecodedInstruction : Prop :=
  ∀ (s : State) w i, s.read2 s.pcNat = .ok w → s.pcNat + 2 ≤ 0xFFFF → decode s.cfg w = .ok i →
    fetch s = .ok (i, s.advanced s.pcNat) ∧ step s = exec i (s.advanced s.pcNat) ∧
    (s.advanced s.pcNat).pcNat = s.pcNat + 2 ∧ s.SameRegsBut (s.advanced s.pcNat) [.pc] ∧
    (s.advanced s.pcNat).mem = s.mem ∧ s.SameControl (s.advanced s.pcNat)

/-- DERIVED, R111 and R112 (decisions D6 and D11; logs 12 and 17): a fetch out of range and a PC that cannot be
advanced fault with the state unchanged. -/
def Obligations.FaultsBeforeTheAdvanceChangeNothing : Prop :=
  ∀ s : State,
    (s.cfg.memSize ≤ s.pcNat → step s = .fault (.failed (.memoryFault s.pcNat) s)) ∧
    (s.pcNat + 1 = s.cfg.memSize →
      step s = .fault (.failed (.memoryFault ((s.pcNat : Int) + 1)) s)) ∧
    (s.pcNat = 0xFFFE → 65536 ≤ s.cfg.memSize →
      step s = .fault (.failed (.memoryFault 0x10000) s))

/-- DERIVED, R113 (decision D11; log 17): a word that does not decode faults, and only the advance stands. -/
def Obligations.DecodeFaultKeepsTheAdvance : Prop :=
  ∀ (s : State) w why, s.read2 s.pcNat = .ok w → s.pcNat + 2 ≤ 0xFFFF →
    decode s.cfg w = .error why →
    ∃ left, step s = .fault (.failed (.decodeFault why) left) ∧ left.pcNat = s.pcNat + 2 ∧
      s.SameRegsBut left [.pc] ∧ left.mem = s.mem ∧ s.SameControl left

/-- DERIVED, R116: after an instruction other than `Signal` that writes no value to PC the next fetch is two
bytes further (what `Signal` leaves in PC is SignalWithHaltHandlerSetsHalt's and SignalFollowsTheTableEntry's). -/
def Obligations.SequentialFlow : Prop :=
  ∀ (s t u : State) i, fetch s = .ok (i, u) → i.isSignal = false → i.writesNamed .pc = false →
    step s = .next t → t.pcNat = s.pcNat + 2

/-- DERIVED, R118: `AddRegister PC, r` transfers control relative to the next word, `PopRegister PC` to the
popped value, whatever the target is. -/
def Obligations.PcWritesTransferControl : Prop :=
  (∀ (s u : State) r, fetch s = .ok (.addRegister .pc r, u) →
    ∃ t, step s = .next t ∧ t.pcNat =
      (s.pcNat + 2 + if r = .pc then s.pcNat + 2 else (s.getReg r).toNat) % 65536) ∧
  ∀ s u : State, fetch s = .ok (.popRegister .pc, u) → 2 ≤ s.spNat → s.spNat ≤ s.cfg.memSize →
    ∃ t, step s = .next t ∧ t.getReg .pc = s.wordAt (s.spNat - 2)

/-- DERIVED, R114 and R115: every step succeeds, faults, or finds a handler that never returns; no word and no
state is refused as having no meaning. -/
def Obligations.StepNeverRefuses : Prop := ∀ (s : State) why, step s ≠ .refused why

/-! ### What each instruction does -/

/-- STATED, R119: `Nop` has no effect; its word is its code with a zero operand byte; all-zero words are
`Nop` under the default codes; a `Nop` word with a set operand bit is illegal in strict mode. -/
def Obligations.NopHasNoEffect : Prop :=
  (∀ s : State, exec .nop s = .next s) ∧
  (∀ cfg : Config, lowByte (encode cfg .nop) = codeOf cfg.opcodes .nop ∧
    highByte (encode cfg .nop) = 0#8) ∧
  (∀ (s u : State), fetch s = .ok (.nop, u) → ∃ t, step s = .next t ∧
    t.pcNat = s.pcNat + 2 ∧ s.SameRegsBut t [.pc] ∧ t.mem = s.mem ∧ s.SameControl t) ∧
  (∀ (n : Nat) (strict : Bool), encode ⟨n, OpcodeMap.default, strict⟩ .nop = 0x0000#16 ∧
    decode ⟨n, OpcodeMap.default, strict⟩ 0x0000#16 = .ok .nop) ∧
  ∀ (cfg : Config) w, tagOfCode cfg.opcodes (lowByte w) = some .nop → cfg.strict = true →
    highByte w ≠ 0#8 → decode cfg w = .error (.reservedBitsSet w)

/-- DERIVED, R125's normal case (its bound on SP is decision D6; log 12): `Push` stores the zero-extended
immediate at SP and moves SP by 2; nothing else changes. -/
def Obligations.PushStoresTheImmediate : Prop :=
  ∀ (s : State) v, s.spNat + 2 ≤ 0xFFFF → s.spNat + 1 < s.cfg.memSize →
    ∃ t, exec (.push v) s = .next t ∧ t.byteAt s.spNat = v ∧ t.byteAt (s.spNat + 1) = 0#8 ∧
      t.spNat = s.spNat + 2 ∧ s.SameRegsBut t [.sp] ∧ s.SameMemBut t s.spNat ∧ s.SameControl t

/-- DERIVED, R135's normal case (decisions D6 and D34; logs 12 and 21): `PushRegister r` stores the value r
had, SP and PC included, and moves SP by 2; nothing else changes. -/
def Obligations.PushRegisterStoresTheRegister : Prop :=
  ∀ (s : State) r, s.spNat + 2 ≤ 0xFFFF → s.spNat + 1 < s.cfg.memSize →
    ∃ t, exec (.pushRegister r) s = .next t ∧ t.byteAt s.spNat = lowByte (s.getReg r) ∧
      t.byteAt (s.spNat + 1) = highByte (s.getReg r) ∧ t.spNat = s.spNat + 2 ∧
      s.SameRegsBut t [.sp] ∧ s.SameMemBut t s.spNat ∧ s.SameControl t

/-- DERIVED, the exceptions of R125 and R135 (decisions D6 and D8; logs 6 and 12): where a push faults, with
which address, and what it leaves, for whatever the free value `Config.storesLowByte` is. -/
def Obligations.PushFaultsLeaveSpUnchanged : Prop :=
  ∀ (s : State) i, i.isPush = true →
    (0xFFFF < s.spNat + 2 →
      exec i s = .fault (.failed (.memoryFault ((s.spNat : Int) + 2)) s)) ∧
    (s.spNat + 2 ≤ 0xFFFF → s.cfg.memSize ≤ s.spNat →
      exec i s = .fault (.failed (.memoryFault s.spNat) s)) ∧
    (s.spNat + 2 ≤ 0xFFFF → s.spNat + 1 = s.cfg.memSize →
      ∃ left, exec i s = .fault (.failed (.memoryFault ((s.spNat : Int) + 1)) left) ∧
        (left.byteAt s.spNat = s.byteAt s.spNat ∨
          left.byteAt s.spNat = lowByte (pushedValue s i)) ∧
        (∀ k, k ≠ s.spNat → left.byteAt k = s.byteAt k) ∧ left.regs = s.regs ∧
        left.halt = s.halt ∧ left.table = s.table ∧ left.cfg = s.cfg)

/-- DERIVED, R130's normal case and R131 (decision D33 for r = SP; log 20): `PopRegister r` puts the slot
below SP into r, moves SP by -2 unless r is SP, and leaves memory, the slot included, as it was. -/
def Obligations.PopRegisterLoadsTheTopSlot : Prop :=
  ∀ (s : State) r, 2 ≤ s.spNat → s.spNat ≤ s.cfg.memSize →
    ∃ t, exec (.popRegister r) s = .next t ∧ t.getReg r = s.wordAt (s.spNat - 2) ∧
      (r ≠ .sp → t.spNat = s.spNat - 2) ∧ s.SameRegsBut t [.sp, r] ∧ t.mem = s.mem ∧
      s.SameControl t

/-- DERIVED, the exceptions of R130 (decision D6; log 12): where a pop faults, with which address; nothing
changes. -/
def Obligations.PopRegisterFaultsChangeNothing : Prop :=
  ∀ (s : State) r,
    (s.spNat < 2 →
      exec (.popRegister r) s = .fault (.failed (.memoryFault ((s.spNat : Int) - 2)) s)) ∧
    (2 ≤ s.spNat → s.cfg.memSize + 2 ≤ s.spNat →
      exec (.popRegister r) s = .fault (.failed (.memoryFault ((s.spNat : Int) - 2)) s)) ∧
    (2 ≤ s.spNat → s.spNat = s.cfg.memSize + 1 →
      exec (.popRegister r) s = .fault (.failed (.memoryFault ((s.spNat : Int) - 1)) s))

/-- DERIVED, R140's normal case: `AddStack` replaces the two top slots by their sum modulo 65536 and moves SP
by -2; the slot it no longer counts keeps its bytes. -/
def Obligations.AddStackAddsTheTopTwoSlots : Prop :=
  ∀ s : State, 4 ≤ s.spNat → s.spNat ≤ s.cfg.memSize →
    ∃ t, exec .addStack s = .next t ∧
      (t.wordAt (s.spNat - 4)).toNat =
        ((s.wordAt (s.spNat - 2)).toNat + (s.wordAt (s.spNat - 4)).toNat) % 65536 ∧
      t.wordAt (s.spNat - 2) = s.wordAt (s.spNat - 2) ∧ t.spNat = s.spNat - 2 ∧
      s.SameRegsBut t [.sp] ∧ s.SameMemBut t ((s.spNat : Int) - 4) ∧ s.SameControl t

/-- DERIVED, the exceptions of R140 (decisions D6 and D9; logs 7 and 12): where `AddStack` faults. A first pop
that fails changes nothing; a second can fail only at SP = 2 or 3, and leaves memory unchanged and SP
old or decremented, for whatever the free value `Config.keepsFirstPop` is. -/
def Obligations.AddStackFaults : Prop :=
  ∀ s : State,
    (s.spNat < 2 → exec .addStack s = .fault (.failed (.memoryFault ((s.spNat : Int) - 2)) s)) ∧
    (2 ≤ s.spNat → s.cfg.memSize + 2 ≤ s.spNat →
      exec .addStack s = .fault (.failed (.memoryFault ((s.spNat : Int) - 2)) s)) ∧
    (2 ≤ s.spNat → s.spNat = s.cfg.memSize + 1 →
      exec .addStack s = .fault (.failed (.memoryFault ((s.spNat : Int) - 1)) s)) ∧
    (s.spNat = 2 ∨ s.spNat = 3 → s.spNat ≤ s.cfg.memSize →
      ∃ left, exec .addStack s = .fault (.failed (.memoryFault ((s.spNat : Int) - 4)) left) ∧
        (left.spNat = s.spNat ∨ left.spNat = s.spNat - 2) ∧ s.SameRegsBut left [.sp] ∧
        left.mem = s.mem ∧ left.halt = s.halt ∧ left.table = s.table ∧ left.cfg = s.cfg) ∧
    ∀ why left, exec .addStack s = .fault (.failed why left) →
      left = s ∨ s.spNat = 2 ∨ s.spNat = 3

/-- STATED, R145: `AddRegister r1, r2` decodes from its two fields, never faults, puts the sum modulo 65536 of
both old values into r1, and changes nothing else; in a step PC reads as the next word's address. -/
def Obligations.AddRegisterAdds : Prop :=
  (∀ cfg w r1 r2, tagOfCode cfg.opcodes (lowByte w) = some .addRegister →
    Reg.ofField (reg1Field w) = some r1 → Reg.ofField (reg2Field w) = some r2 →
    decode cfg w = .ok (.addRegister r1 r2)) ∧
  (∀ cfg r1 r2, lowByte (encode cfg (.addRegister r1 r2)) = codeOf cfg.opcodes .addRegister ∧
    Reg.ofField (reg1Field (encode cfg (.addRegister r1 r2))) = some r1 ∧
    Reg.ofField (reg2Field (encode cfg (.addRegister r1 r2))) = some r2) ∧
  (∀ (s : State) r1 r2, ∃ t, exec (.addRegister r1 r2) s = .next t ∧
    (t.getReg r1).toNat = ((s.getReg r1).toNat + (s.getReg r2).toNat) % 65536 ∧
    s.SameRegsBut t [r1] ∧ t.mem = s.mem ∧ s.SameControl t) ∧
  ∀ (s u : State) r1 r2, fetch s = .ok (.addRegister r1 r2, u) →
    step s = exec (.addRegister r1 r2) u ∧ u.pcNat = s.pcNat + 2 ∧ s.SameRegsBut u [.pc]

/-- DERIVED, R163 (decision D21; log 24): `Signal` completes with the halt handler, which sets halt and changes
nothing else, whichever id it is registered for. -/
def Obligations.SignalWithHaltHandlerSetsHalt : Prop :=
  ∀ (s : State) id, s.entry id = some .halt →
    ∃ t, exec (.signal id) s = .next t ∧ t.halt = true ∧ t.regs = s.regs ∧ t.mem = s.mem ∧
      t.table = s.table ∧ t.cfg = s.cfg ∧ t.draws = s.draws

/-- DERIVED, R155, R156, R162 and R164 (decisions D12 and D14; logs 9, 10 and 18): an empty entry makes
`Signal` a dispatch fault that changes nothing; with a host handler, `Signal` takes the handler's outcome,
whatever the free value `Config.hostHandler` is: its writes stand, success is the step's, failure is a
handler fault on the state it left, and no outcome leaves no successor. -/
def Obligations.SignalFollowsTheTableEntry : Prop :=
  ∀ (s : State) id,
    (s.entry id = none →
      exec (.signal id) s = .fault (.failed (.dispatchFault (.unregisteredSignal id)) s)) ∧
    ∀ n, s.entry id = some (.host n) →
      exec (.signal id) s =
        match Config.hostHandler n s with
        | none => .fault (.handlerHang id)
        | some o =>
          match o.failure with
          | none => .next (s.nextDraw.afterActions o.actions)
          | some p =>
            .fault (.failed (.handlerFault id p) (s.nextDraw.afterActions o.actions))

/-- DERIVED, R161 (decision D14; log 9): a handler's writes can leave any state whatever of the machine, so the
model's handlers lose none of the spec's. -/
def Obligations.HandlerWritesReachEveryState : Prop :=
  ∀ s t : State, s.Inv → t.Inv → t.cfg = s.cfg → t.draws = s.draws →
    ∃ acts, s.afterActions acts = t

/-! ### Frames -/

/-- DERIVED, R119 and R145: `Nop` changes nothing and `AddRegister` nothing but its first register. -/
def Obligations.RegisterInstructionsFrame : Prop :=
  ∀ s t : State,
    (exec .nop s = .next t → s.SameRegsBut t [] ∧ s.SameMem t ∧ s.SameControl t) ∧
    ∀ r1 r2, exec (.addRegister r1 r2) s = .next t →
      s.SameRegsBut t [r1] ∧ s.SameMem t ∧ s.SameControl t

/-- DERIVED, R125 and R135: a push that completes changes SP and the two bytes at the old SP. -/
def Obligations.PushFrame : Prop :=
  ∀ (s t : State) i, i.isPush = true → exec i s = .next t →
    s.SameRegsBut t [.sp] ∧ s.SameMemBut t s.spNat ∧ s.SameControl t

/-- DERIVED, R130 and R131: a pop that completes changes SP and its register, and no byte of memory. -/
def Obligations.PopRegisterFrame : Prop :=
  ∀ (s t : State) r, exec (.popRegister r) s = .next t →
    s.SameRegsBut t [.sp, r] ∧ s.SameMem t ∧ s.SameControl t

/-- DERIVED, R140: an `AddStack` that completes changes SP and the two bytes at the old SP - 4. -/
def Obligations.AddStackFrame : Prop :=
  ∀ s t : State, exec .addStack s = .next t →
    s.SameRegsBut t [.sp] ∧ s.SameMemBut t ((s.spNat : Int) - 4) ∧ s.SameControl t

/-- DERIVED, R161 and R163 (decisions D14 and D21; logs 9 and 24): the halt handler changes no register and no byte; the writes of any handler
leave the parameters and the count of draws, and a write out of range leaves everything. -/
def Obligations.SignalFrame : Prop :=
  (∀ (s t : State) id, s.entry id = some .halt → exec (.signal id) s = .next t →
    s.SameRegsBut t [] ∧ s.SameMem t ∧ t.table = s.table ∧ t.cfg = s.cfg ∧ t.draws = s.draws) ∧
  (∀ (s : State) acts, (s.afterActions acts).cfg = s.cfg ∧ (s.afterActions acts).draws = s.draws) ∧
  ∀ (s : State) (a : Word) v, s.cfg.memSize ≤ a.toNat → s.afterActions [.write a v] = s

/-! ### The whole machine -/

/-- STATED, R24: no instruction reads or writes A, B, C, M or BP implicitly. Where an instruction does not name
one, its value changes nothing else; where it does not write it as a named operand, it is unchanged. A
`Signal` that runs host code is left out: a handler is not an instruction (R22). -/
def Obligations.PlainRegistersHaveNoImplicitRole : Prop :=
  ∀ (s : State) i r, r.isPlain = true → s.callsHost i = false →
    (i.names r = false →
      ∀ v, exec i (s.setReg r v) = mapStates (fun t => t.setReg r v) (exec i s)) ∧
    (i.writesNamed r = false →
      (∀ t, exec i s = .next t → t.getReg r = s.getReg r) ∧
      ∀ why left, exec i s = .fault (.failed why left) → left.getReg r = s.getReg r)

/-- DERIVED, R29 (decision D15; log 22): FLAGS has no implicit reader or writer, so no instruction records a
carry or an overflow in it. -/
def Obligations.FlagsIsAnOrdinaryRegister : Prop :=
  ∀ (s : State) i, s.callsHost i = false →
    (i.names .flags = false →
      ∀ v, exec i (s.setReg .flags v) = mapStates (fun t => t.setReg .flags v) (exec i s)) ∧
    (i.writesNamed .flags = false →
      (∀ t, exec i s = .next t → t.getReg .flags = s.getReg .flags) ∧
      ∀ why left, exec i s = .fault (.failed why left) → left.getReg .flags = s.getReg .flags)

/-- DERIVED, R31 (decision D13; log 19): a step does not read halt: whatever halt is, a step that dispatches no
`Signal` does the same. -/
def Obligations.StepDoesNotReadHalt : Prop :=
  ∀ (s : State) b, (∀ i u, fetch s = .ok (i, u) → i.isSignal = false) →
    step (s.setHalt b) = mapStates (fun t => t.setHalt b) (step s)

/-- DERIVED, R31, R33 and R165: only a step that dispatches a `Signal` can change halt or the table. -/
def Obligations.OnlySignalTouchesHaltAndTable : Prop :=
  ∀ s : State, (∀ i u, fetch s = .ok (i, u) → i.isSignal = false) →
    (∀ t, step s = .next t → t.halt = s.halt ∧ t.table = s.table) ∧
    ∀ why left, step s = .fault (.failed why left) → left.halt = s.halt ∧ left.table = s.table

/-- DERIVED, R20, R33, R34 and R47 (the parameters stand in the state by log 1): every step keeps the
invariant, in the next state and in the state a fault leaves, and changes no parameter. -/
def Obligations.StepKeepsTheInvariant : Prop :=
  ∀ s : State, s.Inv →
    (∀ t, step s = .next t → t.Inv ∧ t.cfg = s.cfg) ∧
    ∀ f left, step s = .fault f → f.resume = some left → left.Inv ∧ left.cfg = s.cfg

/-- DERIVED, R41 with R51 and R52: every host operation keeps the invariant and the parameters, whether it
succeeds or fails (that `construct` keeps the parameters is the model's choice; log 33). -/
def Obligations.HostOperationsKeepTheInvariant : Prop :=
  ∀ (s : State) op, s.Inv →
    (∀ reply t, hostOp op s = .success reply t → t.Inv ∧ t.cfg = s.cfg) ∧
    ∀ why t, hostOp op s = .failure why t → t.Inv ∧ t.cfg = s.cfg

/-- DERIVED, R36 (log 1): a constructed machine meets the invariant, under every admitted choice of the
parameters, and so does the machine after reset. -/
def Obligations.ConstructionMeetsTheInvariant : Prop :=
  (∀ cfg : Config, cfg.wf → (State.construct cfg).Inv) ∧ State.reset.Inv

/-- DERIVED, R143: values pushed one after another, by either push, pop in reverse order into any registers but
SP and PC, and SP ends where it began. -/
def Obligations.PushedValuesPopInReverse : Prop :=
  ∀ (s : State) (is : List Instr) (rs : List Reg), (∀ i ∈ is, i.isPush = true) →
    rs.length = is.length → (∀ r ∈ rs, r ≠ .sp ∧ r ≠ .pc) →
    s.spNat + 2 * is.length ≤ 0xFFFF → s.spNat + 2 * is.length ≤ s.cfg.memSize →
    ∃ t u vs, pushAll is s = some (t, vs) ∧ vs.length = is.length ∧
      popAll rs t = some (u, vs.reverse) ∧ u.spNat = s.spNat

/-- DERIVED, R66 and R206 (decision D26; log 23): a push onto the word the next step fetches is fetched by that
step: if the pushed value decodes, the step runs that instruction; if not, the step faults on it. -/
def Obligations.PushedWordIsFetchedNext : Prop :=
  ∀ (s : State) i, i.isPush = true → s.spNat + 2 ≤ 0xFFFF → s.spNat + 1 < s.cfg.memSize →
    s.pcNat = s.spNat →
    ∃ t, exec i s = .next t ∧ t.pcNat = s.spNat ∧ t.read2 t.pcNat = .ok (pushedValue s i) ∧
      (∀ j, decode s.cfg (pushedValue s i) = .ok j →
        fetch t = .ok (j, t.advanced t.pcNat) ∧ step t = exec j (t.advanced t.pcNat)) ∧
      ∀ why, decode s.cfg (pushedValue s i) = .error why →
        step t = .fault (.failed (.decodeFault why) (t.advanced t.pcNat))

/-- DERIVED, R199 to R201 (decision D20): the run loop ends halted after the first successful step that leaves
halt set, faulted at the first step that fails before that, and hung at a handler with no outcome; halt is
not read before a step. With no limit on its steps, a run is exactly one of Halted, Faulted and Hang, and
its end is unique. -/
def Obligations.RunLoopEndsAtHaltOrFault : Prop :=
  (∀ (n : Nat) (s t : State), runLoop n s = .halted t ↔
    ∃ k u, k < n ∧ s.Quietly k u ∧ step u = .next t ∧ t.halt = true) ∧
  (∀ (n : Nat) (s : State) why (left : State), runLoop n s = .faulted why left ↔
    ∃ k u, k < n ∧ s.Quietly k u ∧ step u = .fault (.failed why left)) ∧
  (∀ (n : Nat) (s : State) id, runLoop n s = .hang id ↔
    ∃ k u, k < n ∧ s.Quietly k u ∧ step u = .fault (.handlerHang id)) ∧
  (∀ (n : Nat) (s u : State), runLoop n s = .cutShort u ↔ s.Quietly n u) ∧
  ∀ s : State,
    ((∃ t, s.RunHalts t) ∨ (∃ why left, s.RunFaults why left) ∨ s.RunHangs) ∧
    (∀ t, s.RunHalts t → ¬ s.RunHangs ∧ (∀ why left, ¬ s.RunFaults why left) ∧
      ∀ t', s.RunHalts t' → t' = t) ∧
    ∀ why left, s.RunFaults why left → ¬ s.RunHangs ∧
      ∀ why' left', s.RunFaults why' left' → why' = why ∧ left' = left

/-! ### The host -/

/-- DERIVED, R31 and R41 (decision D14): no host operation on a machine but a step of it can change halt. -/
def Obligations.HostCannotWriteHalt : Prop :=
  ∀ (s : State) op, op ≠ .step → op ≠ .construct →
    (∀ reply t, hostOp op s = .success reply t → t.halt = s.halt) ∧
    ∀ why t, hostOp op s = .failure why t → t.halt = s.halt

/-! ### The assembler -/

/-- STATED, R93: the number of tokens after the mnemonic must equal its arity, or the line gives a parse fault
that names both counts. -/
def Obligations.OperandCountMustEqualTheArity : Prop :=
  ∀ p m (number : Nat) line rest tok ops t, tokensOf line = tok :: ops →
    tok.head? ≠ some p.comment → tagOfMnemonic m tok = some t →
    (ops.length ≠ (registryRow m t).arity →
      parseLines p m number (line :: rest) =
        .error (.parseFault number (.arity (registryRow m t).arity ops.length))) ∧
    (ops.length = (registryRow m t).arity → ∀ e a, parseLine p m line ≠ .error (.arity e a))

/-- DERIVED, R92 (decision D24; log 25): a first token that is none of the seven mnemonics, case included, gives
a parse fault that names it. -/
def Obligations.UnknownMnemonicIsRefused : Prop :=
  (∀ m tok, tagOfMnemonic m tok = none ↔ ∀ t, tok ≠ (registryRow m t).mnemonic.toList) ∧
  ∀ p m (number : Nat) line rest tok ops, tokensOf line = tok :: ops →
    tok.head? ≠ some p.comment → tagOfMnemonic m tok = none →
    parseLines p m number (line :: rest) =
      .error (.parseFault number (.unknownMnemonic tok))

/-- DERIVED, R98 (decisions D31 and D35; log 25): assembly stops at the first line that gives a parse fault, and
names it by its 1-based number among all lines. -/
def Obligations.FirstBadLineStopsAssembly : Prop :=
  ∀ p cfg text good bad rest e, linesOf text = good ++ bad :: rest →
    (∀ l ∈ good, ∃ o, parseLine p cfg.opcodes l = .ok o) →
    parseLine p cfg.opcodes bad = .error e →
    assemble p cfg text = .error (.parseFault (good.length + 1) e)

/-- DERIVED, R94 (decision D23; log 25): a literal in decimal, hexadecimal (in either case) or binary, leading
zeros allowed, is its number, and a number above 255 is refused; so is every token that is not a marker, if
any, and one or more digits of its radix. -/
def Obligations.LiteralsAreTheirNumbers : Prop :=
  (∀ (n zeros : Nat) token,
    token = List.replicate zeros '0' ++ Nat.toDigits 10 n ∨
    (∃ h : List Char, h.map Char.toLower = Nat.toDigits 16 n ∧
      token = '$' :: (List.replicate zeros '0' ++ h)) ∨
    token = '%' :: (List.replicate zeros '0' ++ Nat.toDigits 2 n) →
    parseLiteral AsmParams.default token =
      if n ≤ 255 then .ok (BitVec.ofNat 8 n) else .error (.badLiteral token)) ∧
  ∀ token : List Char,
    ¬ (token ≠ [] ∧ ∀ c ∈ token, c.isDigit = true) →
    ¬ (∃ h, h ≠ [] ∧ token = '$' :: h ∧
      ∀ c ∈ h, c.isDigit = true ∨ ('a' ≤ c ∧ c ≤ 'f') ∨ ('A' ≤ c ∧ c ≤ 'F')) →
    ¬ (∃ b, b ≠ [] ∧ token = '%' :: b ∧ ∀ c ∈ b, c = '0' ∨ c = '1') →
    parseLiteral AsmParams.default token = .error (.badLiteral token)

/-- STATED, R96: `AddRegister X Y` assembles to reg1 = X and reg2 = Y, and computes X := X + Y; the source's
example fixes the order. -/
def Obligations.AddRegisterTextFixesTheOrder : Prop :=
  (∀ (cfg : Config) (x y : Reg),
    assemble AsmParams.default cfg
        ("AddRegister ".toList ++ x.name.toList ++ ' ' :: y.name.toList) =
      .ok (encodeBytes cfg (.addRegister x y)) ∧
    Reg.ofField (reg1Field (encode cfg (.addRegister x y))) = some x ∧
    Reg.ofField (reg2Field (encode cfg (.addRegister x y))) = some y ∧
    ∀ s : State, ∃ t, exec (.addRegister x y) s = .next t ∧
      (t.getReg x).toNat = ((s.getReg x).toNat + (s.getReg y).toNat) % 65536) ∧
  ∀ s : State, s.getReg .a = 0xFFFF#16 → s.getReg .b = 0x0002#16 →
    ∃ t, exec (.addRegister .a .b) s = .next t ∧ t.getReg .a = 0x0001#16

/-- STATED, R100: each accepted instruction line emits its instruction's word, appended in file order, the low
byte first; so the source's example text assembles to the words of its four instructions. -/
def Obligations.AcceptedLinesEmitTheirWordsInOrder : Prop :=
  (∀ p cfg text (found : List (Option Instr)),
    (linesOf text).map (parseLine p cfg.opcodes) = found.map .ok →
    assemble p cfg text = .ok (found.flatMap (fun o =>
      match o with
      | none => []
      | some i => [lowByte (encode cfg i), highByte (encode cfg i)]))) ∧
  ∀ cfg : Config, assemble AsmParams.default cfg
      "Push 10\nPush 8\nAddStack\nPopRegister A".toList =
    .ok (imageOf cfg [.push 10#8, .push 8#8, .addStack, .popRegister .a])

/-- DERIVED, R92 to R97 (decisions D23 and D24; log 25): a line of R97's grammar written for an instruction is read
back as that instruction, for every instruction. -/
def Obligations.InstructionTextsParseBack : Prop :=
  ∀ m i, parseLine AsmParams.default m (instrText m i) = .ok (some i)
end

