-- ==== Sys2Proof/Laws/State.lean ====
section
/-! SUPPORT. One lemma per field per update of the state, true by unfolding the update once, so that no
later proof unfolds a record update. -/

namespace Sys2Proof.Machine

@[simp] theorem State.setReg_regs (s : State) (r : Reg) (v : Word) :
    (s.setReg r v).regs = s.regs.set r v := rfl

@[simp] theorem State.setReg_mem (s : State) (r : Reg) (v : Word) :
    (s.setReg r v).mem = s.mem := rfl

@[simp] theorem State.setReg_halt (s : State) (r : Reg) (v : Word) :
    (s.setReg r v).halt = s.halt := rfl

@[simp] theorem State.setReg_table (s : State) (r : Reg) (v : Word) :
    (s.setReg r v).table = s.table := rfl

@[simp] theorem State.setReg_cfg (s : State) (r : Reg) (v : Word) :
    (s.setReg r v).cfg = s.cfg := rfl

@[simp] theorem State.setReg_draws (s : State) (r : Reg) (v : Word) :
    (s.setReg r v).draws = s.draws := rfl

@[simp] theorem State.setHalt_regs (s : State) (b : Bool) :
    (s.setHalt b).regs = s.regs := rfl

@[simp] theorem State.setHalt_mem (s : State) (b : Bool) :
    (s.setHalt b).mem = s.mem := rfl

@[simp] theorem State.setHalt_halt (s : State) (b : Bool) :
    (s.setHalt b).halt = b := rfl

@[simp] theorem State.setHalt_table (s : State) (b : Bool) :
    (s.setHalt b).table = s.table := rfl

@[simp] theorem State.setHalt_cfg (s : State) (b : Bool) :
    (s.setHalt b).cfg = s.cfg := rfl

@[simp] theorem State.setHalt_draws (s : State) (b : Bool) :
    (s.setHalt b).draws = s.draws := rfl

@[simp] theorem State.setEntry_regs (s : State) (id : Byte) (e : Option Handler) :
    (s.setEntry id e).regs = s.regs := rfl

@[simp] theorem State.setEntry_mem (s : State) (id : Byte) (e : Option Handler) :
    (s.setEntry id e).mem = s.mem := rfl

@[simp] theorem State.setEntry_halt (s : State) (id : Byte) (e : Option Handler) :
    (s.setEntry id e).halt = s.halt := rfl

@[simp] theorem State.setEntry_table (s : State) (id : Byte) (e : Option Handler) :
    (s.setEntry id e).table = Sparse.put id.toNat e s.table := rfl

@[simp] theorem State.setEntry_cfg (s : State) (id : Byte) (e : Option Handler) :
    (s.setEntry id e).cfg = s.cfg := rfl

@[simp] theorem State.setEntry_draws (s : State) (id : Byte) (e : Option Handler) :
    (s.setEntry id e).draws = s.draws := rfl

@[simp] theorem State.nextDraw_regs (s : State) :
    (s.nextDraw).regs = s.regs := rfl

@[simp] theorem State.nextDraw_mem (s : State) :
    (s.nextDraw).mem = s.mem := rfl

@[simp] theorem State.nextDraw_halt (s : State) :
    (s.nextDraw).halt = s.halt := rfl

@[simp] theorem State.nextDraw_table (s : State) :
    (s.nextDraw).table = s.table := rfl

@[simp] theorem State.nextDraw_cfg (s : State) :
    (s.nextDraw).cfg = s.cfg := rfl

@[simp] theorem State.nextDraw_draws (s : State) :
    (s.nextDraw).draws = s.draws + 1 := rfl

@[simp] theorem State.setByte_regs (s : State) (k : Nat) (v : Byte) :
    (s.setByte k v).regs = s.regs := rfl

@[simp] theorem State.setByte_mem (s : State) (k : Nat) (v : Byte) :
    (s.setByte k v).mem = Sparse.put k (if v = unlistedByte then none else some v) s.mem := rfl

@[simp] theorem State.setByte_halt (s : State) (k : Nat) (v : Byte) :
    (s.setByte k v).halt = s.halt := rfl

@[simp] theorem State.setByte_table (s : State) (k : Nat) (v : Byte) :
    (s.setByte k v).table = s.table := rfl

@[simp] theorem State.setByte_cfg (s : State) (k : Nat) (v : Byte) :
    (s.setByte k v).cfg = s.cfg := rfl

@[simp] theorem State.setByte_draws (s : State) (k : Nat) (v : Byte) :
    (s.setByte k v).draws = s.draws := rfl

@[simp] theorem State.setSpNat_regs (s : State) (n : Nat) :
    (s.setSpNat n).regs = s.regs.set .sp (BitVec.ofNat 16 n) := rfl

@[simp] theorem State.setSpNat_mem (s : State) (n : Nat) :
    (s.setSpNat n).mem = s.mem := rfl

@[simp] theorem State.setSpNat_halt (s : State) (n : Nat) :
    (s.setSpNat n).halt = s.halt := rfl

@[simp] theorem State.setSpNat_table (s : State) (n : Nat) :
    (s.setSpNat n).table = s.table := rfl

@[simp] theorem State.setSpNat_cfg (s : State) (n : Nat) :
    (s.setSpNat n).cfg = s.cfg := rfl

@[simp] theorem State.setSpNat_draws (s : State) (n : Nat) :
    (s.setSpNat n).draws = s.draws := rfl

@[simp] theorem State.setPcNat_regs (s : State) (n : Nat) :
    (s.setPcNat n).regs = s.regs.set .pc (BitVec.ofNat 16 n) := rfl

@[simp] theorem State.setPcNat_mem (s : State) (n : Nat) :
    (s.setPcNat n).mem = s.mem := rfl

@[simp] theorem State.setPcNat_halt (s : State) (n : Nat) :
    (s.setPcNat n).halt = s.halt := rfl

@[simp] theorem State.setPcNat_table (s : State) (n : Nat) :
    (s.setPcNat n).table = s.table := rfl

@[simp] theorem State.setPcNat_cfg (s : State) (n : Nat) :
    (s.setPcNat n).cfg = s.cfg := rfl

@[simp] theorem State.setPcNat_draws (s : State) (n : Nat) :
    (s.setPcNat n).draws = s.draws := rfl

@[simp] theorem State.advanced_regs (s : State) (a : Nat) :
    (s.advanced a).regs = s.regs.set .pc (BitVec.ofNat 16 (a + 2)) := rfl

@[simp] theorem State.advanced_mem (s : State) (a : Nat) :
    (s.advanced a).mem = s.mem := rfl

@[simp] theorem State.advanced_halt (s : State) (a : Nat) :
    (s.advanced a).halt = s.halt := rfl

@[simp] theorem State.advanced_table (s : State) (a : Nat) :
    (s.advanced a).table = s.table := rfl

@[simp] theorem State.advanced_cfg (s : State) (a : Nat) :
    (s.advanced a).cfg = s.cfg := rfl

@[simp] theorem State.advanced_draws (s : State) (a : Nat) :
    (s.advanced a).draws = s.draws := rfl

@[simp] theorem State.construct_regs (cfg : Config) : (State.construct cfg).regs = RegFile.zero := rfl

@[simp] theorem State.construct_mem (cfg : Config) : (State.construct cfg).mem = [] := rfl

@[simp] theorem State.construct_halt (cfg : Config) : (State.construct cfg).halt = false := rfl

@[simp] theorem State.construct_table (cfg : Config) : (State.construct cfg).table = [] := rfl

@[simp] theorem State.construct_cfg (cfg : Config) : (State.construct cfg).cfg = cfg := rfl

@[simp] theorem State.construct_draws (cfg : Config) : (State.construct cfg).draws = 0 := rfl

/-! ### Registers -/

@[simp] theorem RegFile.get_set (f : RegFile) (r q : Reg) (v : Word) :
    (f.set r v).get q = if q = r then v else f.get q := by
  cases r <;> cases q <;> rfl

@[simp] theorem State.getReg_setReg (s : State) (r q : Reg) (v : Word) :
    (s.setReg r v).getReg q = if q = r then v else s.getReg q := RegFile.get_set _ _ _ _

@[simp] theorem State.getReg_setSpNat (s : State) (n : Nat) (q : Reg) :
    (s.setSpNat n).getReg q = if q = .sp then BitVec.ofNat 16 n else s.getReg q :=
  RegFile.get_set _ _ _ _

@[simp] theorem State.getReg_setPcNat (s : State) (n : Nat) (q : Reg) :
    (s.setPcNat n).getReg q = if q = .pc then BitVec.ofNat 16 n else s.getReg q :=
  RegFile.get_set _ _ _ _

@[simp] theorem State.getReg_advanced (s : State) (a : Nat) (q : Reg) :
    (s.advanced a).getReg q = if q = .pc then BitVec.ofNat 16 (a + 2) else s.getReg q :=
  RegFile.get_set _ _ _ _

@[simp] theorem State.getReg_setHalt (s : State) (b : Bool) (q : Reg) :
    (s.setHalt b).getReg q = s.getReg q := rfl

@[simp] theorem State.getReg_setEntry (s : State) (id : Byte) (e : Option Handler) (q : Reg) :
    (s.setEntry id e).getReg q = s.getReg q := rfl

@[simp] theorem State.getReg_nextDraw (s : State) (q : Reg) :
    s.nextDraw.getReg q = s.getReg q := rfl

@[simp] theorem State.getReg_setByte (s : State) (k : Nat) (v : Byte) (q : Reg) :
    (s.setByte k v).getReg q = s.getReg q := rfl

/-- Two register files with the same reading of every register are the same. -/
theorem RegFile.ext_get {f g : RegFile} (h : ∀ r, f.get r = g.get r) : f = g := by
  have ha := h .a; have hb := h .b; have hc := h .c; have hm := h .m
  have hs := h .sp; have hp := h .pc; have hbp := h .bp; have hf := h .flags
  cases f; cases g
  simp only [RegFile.get] at ha hb hc hm hs hp hbp hf
  simp only [ha, hb, hc, hm, hs, hp, hbp, hf]

end Sys2Proof.Machine
end

