-- ==== Sys2Proof/Laws/Ops.lean ====
section
/-! SUPPORT. The laws of the shared operations: sparse data, memory and the handler table. Reading what was
written holds for every list, canonical or not; each operation keeps the canonical form. -/

namespace Sys2Proof.Machine

/-! ### Sparse data -/

section Sparse

variable {α : Type} (k q : Nat) (v : α) (l : List (Nat × α))

theorem Sparse.get_insert_same (h : Sparse.get k l = none) :
    Sparse.get k (Sparse.insert k v l) = some v := by
  induction l with
  | nil => simp [Sparse.insert, Sparse.get]
  | cons e rest ih =>
    have hne : e.1 ≠ k := fun he => by simp [Sparse.get, he] at h
    have hr : Sparse.get k rest = none := by simpa [Sparse.get, hne] using h
    by_cases hlt : k < e.1
    · simp [Sparse.insert, hlt, Sparse.get]
    · simp [Sparse.insert, hlt, Sparse.get, hne, ih hr]

theorem Sparse.get_insert_ne (h : q ≠ k) :
    Sparse.get q (Sparse.insert k v l) = Sparse.get q l := by
  induction l with
  | nil => simp [Sparse.insert, Sparse.get, h.symm]
  | cons e rest ih =>
    by_cases hlt : k < e.1
    · simp [Sparse.insert, hlt, Sparse.get, h.symm]
    · simp [Sparse.insert, hlt, Sparse.get, ih]

theorem Sparse.get_erase :
    Sparse.get q (Sparse.erase k l) = if q = k then none else Sparse.get q l := by
  induction l with
  | nil => simp [Sparse.erase, Sparse.get]
  | cons e rest ih =>
    have he : Sparse.erase k (e :: rest) =
        if e.1 = k then Sparse.erase k rest else e :: Sparse.erase k rest := by
      by_cases hk : e.1 = k <;> simp [Sparse.erase, hk]
    rw [he]
    by_cases hk : e.1 = k
    · simp only [hk, if_true, ih]
      by_cases hq : q = k
      · simp [hq]
      · simp [hq, Sparse.get, hk, Ne.symm hq]
    · simp only [hk, if_false, Sparse.get, ih]
      by_cases hq : e.1 = q
      · simp [hq]; exact fun h => absurd (hq.trans h) hk
      · simp [hq]

/-- Reading any key after setting one. -/
theorem Sparse.get_put (o : Option α) :
    Sparse.get q (Sparse.put k o l) = if q = k then o else Sparse.get q l := by
  cases o with
  | none => exact Sparse.get_erase k q l
  | some v =>
    by_cases hq : q = k
    · subst hq
      simpa [Sparse.put] using
        Sparse.get_insert_same q v (Sparse.erase q l) (by simp [Sparse.get_erase])
    · simp [Sparse.put, Sparse.get_insert_ne k q v _ hq, Sparse.get_erase, hq]

theorem Sparse.mem_insert (e : Nat × α) :
    e ∈ Sparse.insert k v l ↔ e = (k, v) ∨ e ∈ l := by
  induction l with
  | nil => simp [Sparse.insert]
  | cons x rest ih =>
    by_cases hlt : k < x.1
    · simp [Sparse.insert, hlt]
    · simp only [Sparse.insert, hlt, if_false, List.mem_cons, ih]
      tauto

/-- An entry after setting a key is the one set, or an earlier entry at another key. -/
theorem Sparse.mem_put {o : Option α} {e : Nat × α} (h : e ∈ Sparse.put k o l) :
    (e.1 = k ∧ o = some e.2) ∨ (e ∈ l ∧ e.1 ≠ k) := by
  cases o with
  | none => exact .inr (by simpa [Sparse.put, Sparse.erase] using h)
  | some v =>
    rcases (Sparse.mem_insert k v _ e).1 h with rfl | h
    · exact .inl ⟨rfl, rfl⟩
    · exact .inr (by simpa [Sparse.erase] using h)

theorem Sparse.rising_erase (h : Sparse.rising l) : Sparse.rising (Sparse.erase k l) :=
  h.filter _

theorem Sparse.rising_insert (h : Sparse.rising l) (hk : ∀ e ∈ l, e.1 ≠ k) :
    Sparse.rising (Sparse.insert k v l) := by
  induction l with
  | nil => simp [Sparse.insert]
  | cons x rest ih =>
    obtain ⟨hx, hr⟩ := List.pairwise_cons.1 h
    by_cases hlt : k < x.1
    · simp only [Sparse.insert, hlt, if_true]
      exact List.pairwise_cons.2 ⟨fun e he => by
        rcases List.mem_cons.1 he with rfl | he
        · exact hlt
        · exact lt_trans hlt (hx e he), h⟩
    · simp only [Sparse.insert, hlt, if_false]
      have hxk : x.1 < k := lt_of_le_of_ne (not_lt.1 hlt) (hk x (by simp))
      refine List.pairwise_cons.2 ⟨fun e he => ?_, ih hr (fun e he => hk e (by simp [he]))⟩
      rcases (Sparse.mem_insert k v rest e).1 he with rfl | he
      · exact hxk
      · exact hx e he

/-- Setting a key keeps the keys rising. -/
theorem Sparse.rising_put (o : Option α) (h : Sparse.rising l) : Sparse.rising (Sparse.put k o l) := by
  cases o with
  | none => exact Sparse.rising_erase k l h
  | some v =>
    exact Sparse.rising_insert k v _ (Sparse.rising_erase k l h)
      (fun e he => by simpa [Sparse.erase] using (List.mem_filter.1 he).2)

end Sparse

theorem Sparse.get_mem {α : Type} {k : Nat} {v : α} {l : List (Nat × α)}
    (h : Sparse.get k l = some v) : (k, v) ∈ l := by
  induction l with
  | nil => simp [Sparse.get] at h
  | cons e rest ih =>
    by_cases he : e.1 = k
    · simp only [Sparse.get, he, if_true, Option.some.injEq] at h
      subst he; subst h; simp
    · simp only [Sparse.get, he, if_false] at h
      exact List.mem_cons_of_mem _ (ih h)

theorem Sparse.get_of_mem {α : Type} {e : Nat × α} {l : List (Nat × α)} (hl : Sparse.rising l)
    (h : e ∈ l) : Sparse.get e.1 l = some e.2 := by
  induction l with
  | nil => simp at h
  | cons x rest ih =>
    obtain ⟨hx, hr⟩ := List.pairwise_cons.1 hl
    rcases List.mem_cons.1 h with rfl | h
    · simp [Sparse.get]
    · simp [Sparse.get, (hx e h).ne, ih hr h]

/-- Two lists with rising keys that read alike at every key are equal. -/
theorem Sparse.ext_get {α : Type} {l m : List (Nat × α)} (hl : Sparse.rising l)
    (hm : Sparse.rising m) (h : ∀ k, Sparse.get k l = Sparse.get k m) : l = m := by
  have hmem : ∀ e, e ∈ l ↔ e ∈ m := fun e =>
    ⟨fun he => Sparse.get_mem (k := e.1) (v := e.2) (by rw [← h]; exact Sparse.get_of_mem hl he),
     fun he => Sparse.get_mem (k := e.1) (v := e.2) (by rw [h]; exact Sparse.get_of_mem hm he)⟩
  have nd : ∀ {l : List (Nat × α)}, Sparse.rising l → l.Nodup := fun hl =>
    hl.imp (fun hlt he => by simp [he] at hlt)
  exact List.Perm.eq_of_pairwise (fun a b _ _ h1 h2 => absurd (lt_trans h1 h2) (lt_irrefl _)) hl hm
    ((List.perm_ext_iff_of_nodup (nd hl) (nd hm)).2 hmem)

/-! ### Bytes and words -/

@[simp] theorem lowByte_wordOfBytes (lo hi : Byte) : lowByte (wordOfBytes lo hi) = lo := by
  unfold lowByte wordOfBytes; exact BitVec.extractLsb'_append_eq_right

@[simp] theorem highByte_wordOfBytes (lo hi : Byte) : highByte (wordOfBytes lo hi) = hi := by
  unfold highByte wordOfBytes; exact BitVec.extractLsb'_append_eq_left

@[simp] theorem wordOfBytes_low_high (w : Word) : wordOfBytes (lowByte w) (highByte w) = w := by
  apply BitVec.eq_of_getLsbD_eq
  intro i hi
  simp only [wordOfBytes, lowByte, highByte, BitVec.getLsbD_append, BitVec.getLsbD_extractLsb']
  by_cases h : i < 8
  · simp [h]
  · have h8 : i - 8 < 8 := by omega
    have h' : 8 + (i - 8) = i := by omega
    simp [h, h8, h']

/-- A word as a number: its low byte plus 256 times its high byte (R49, R70). -/
theorem toNat_wordOfBytes (lo hi : Byte) :
    (wordOfBytes lo hi).toNat = lo.toNat + 256 * hi.toNat := by
  have := lo.isLt
  rw [wordOfBytes, BitVec.toNat_append, Nat.shiftLeft_eq, ← Nat.shiftLeft_eq,
    ← Nat.shiftLeft_add_eq_or_of_lt (by omega), Nat.shiftLeft_eq]
  omega

/-- Addition is modulo 65536 (R148). -/
@[simp] theorem toNat_add16 (a b : Word) : (add16 a b).toNat = (a.toNat + b.toNat) % 65536 := by
  simp [add16]

/-! ### Memory -/

@[simp] theorem State.byteAt_setByte (s : State) (k q : Nat) (v : Byte) :
    (s.setByte k v).byteAt q = if q = k then v else s.byteAt q := by
  unfold State.byteAt State.setByte
  rw [Sparse.get_put]
  by_cases hq : q = k
  · by_cases hv : v = unlistedByte <;> simp [hq, hv]
  · simp [hq]

@[simp] theorem State.inRange_cfg {s t : State} (h : t.cfg = s.cfg) (a : Int) :
    t.inRange a = s.inRange a := by simp [State.inRange, h]

theorem State.inRange_iff (s : State) (a : Int) :
    s.inRange a = true ↔ 0 ≤ a ∧ a < s.cfg.memSize := by simp [State.inRange]

/-- Everything a read can do (R46). -/
theorem State.read_eq_some {s : State} {a : Int} {b : Byte} :
    s.read a = some b ↔ s.inRange a = true ∧ s.byteAt a.toNat = b := by
  unfold State.read; split <;> simp_all

theorem State.read_eq_none {s : State} {a : Int} : s.read a = none ↔ s.inRange a = false := by
  unfold State.read; split <;> simp_all

/-- Everything a write can do when it succeeds (R48). -/
theorem State.write_eq_some {s t : State} {a : Int} {v : Byte} :
    s.write a v = some t ↔ s.inRange a = true ∧ s.setByte a.toNat v = t := by
  unfold State.write; split <;> simp_all

theorem State.write_eq_none {s : State} {a : Int} {v : Byte} :
    s.write a v = none ↔ s.inRange a = false := by
  unfold State.write; split <;> simp_all

/-- A 16-bit read that succeeds (R49). -/
theorem State.read2_eq_ok {s : State} {a : Int} {w : Word} :
    s.read2 a = .ok w ↔ s.inRange a = true ∧ s.inRange (a + 1) = true ∧
      wordOfBytes (s.byteAt a.toNat) (s.byteAt (a + 1).toNat) = w := by
  unfold State.read2 State.read
  cases s.inRange a <;> cases s.inRange (a + 1) <;> simp

/-- A 16-bit read that fails, at the first address out of range (R49). -/
theorem State.read2_eq_error {s : State} {a bad : Int} :
    s.read2 a = .error bad ↔ (s.inRange a = false ∧ bad = a) ∨
      (s.inRange a = true ∧ s.inRange (a + 1) = false ∧ bad = a + 1) := by
  unfold State.read2 State.read
  cases s.inRange a <;> cases s.inRange (a + 1) <;> simp [eq_comm]

/-- A 16-bit write that succeeds (R50). -/
theorem State.write2_eq_ok {s t : State} {a : Int} {v : Word} :
    s.write2 a v = .ok t ↔ s.inRange a = true ∧ s.inRange (a + 1) = true ∧
      (s.setByte a.toNat (lowByte v)).setByte (a + 1).toNat (highByte v) = t := by
  unfold State.write2
  cases s.inRange a <;> cases s.inRange (a + 1) <;> simp

/-- A 16-bit write that fails: nothing is written at a first address out of range; the first byte is a
draw at a second address out of range (R50). -/
theorem State.write2_eq_error {s t : State} {a bad : Int} {v : Word} :
    s.write2 a v = .error (bad, t) ↔ (s.inRange a = false ∧ bad = a ∧ t = s) ∨
      (s.inRange a = true ∧ s.inRange (a + 1) = false ∧ bad = a + 1 ∧ t = s.halfWritten a v) := by
  unfold State.write2
  cases s.inRange a <;> cases s.inRange (a + 1) <;> simp [eq_comm]

/-- What a failed 16-bit write leaves: one draw more, and at most the first byte changed (R50). -/
theorem State.halfWritten_cases (s : State) (a : Int) (v : Word) :
    s.halfWritten a v = s.nextDraw ∨
      s.halfWritten a v = (s.setByte a.toNat (lowByte v)).nextDraw := by
  unfold State.halfWritten; split <;> simp

/-- What a failed second pop leaves: one draw more, and SP kept or decremented (R140). -/
theorem State.halfPopped_cases (s : State) (top : Nat) :
    s.halfPopped top = s.nextDraw ∨ s.halfPopped top = (s.setSpNat (top - 2)).nextDraw := by
  unfold State.halfPopped; split <;> simp

theorem State.poke_cases (s : State) (a : Int) (v : Byte) :
    s.poke a v = s ∨ (s.inRange a = true ∧ s.poke a v = s.setByte a.toNat v) := by
  unfold State.poke State.write; split <;> simp_all

/-! ### The handler table -/

@[simp] theorem State.entry_setEntry (s : State) (id q : Byte) (e : Option Handler) :
    (s.setEntry id e).entry q = if q = id then e else s.entry q := by
  simp [State.entry, State.setEntry, Sparse.get_put, BitVec.toNat_inj]

/-! ### The canonical forms are kept -/

theorem Mem.wf_setByte {s : State} (k : Nat) (v : Byte) (h : Mem.wf s.mem) :
    Mem.wf (s.setByte k v).mem := by
  refine ⟨Sparse.rising_put _ _ _ h.1, fun e he => ?_⟩
  rcases Sparse.mem_put _ _ he with ⟨-, ho⟩ | ⟨hm, -⟩
  · split at ho
    · cases ho
    · cases ho; assumption
  · exact h.2 e hm

theorem Mem.within_setByte {s : State} {n k : Nat} (v : Byte) (h : Mem.within n s.mem) (hk : k < n) :
    Mem.within n (s.setByte k v).mem := by
  intro e he
  rcases Sparse.mem_put _ _ he with ⟨h1, -⟩ | ⟨hm, -⟩
  · omega
  · exact h e hm

theorem Table.wf_setEntry {s : State} (id : Byte) (e : Option Handler) (h : Table.wf s.table) :
    Table.wf (s.setEntry id e).table := by
  refine ⟨Sparse.rising_put _ _ _ h.1, fun x hx => ?_⟩
  rcases Sparse.mem_put _ _ hx with ⟨h1, -⟩ | ⟨hm, -⟩
  · have := id.isLt; omega
  · exact h.2 x hm

/-- Every memory operation keeps the canonical form: a successful 16-bit write. -/
theorem Mem.wf_write2 {s t : State} {a : Int} {v : Word} (h : Mem.wf s.mem)
    (hw : s.write2 a v = .ok t) : Mem.wf t.mem := by
  obtain ⟨-, -, rfl⟩ := State.write2_eq_ok.1 hw
  exact Mem.wf_setByte _ _ (Mem.wf_setByte _ _ h)

/-- Every memory operation keeps the canonical form: a failed 16-bit write. -/
theorem Mem.wf_halfWritten {s : State} (a : Int) (v : Word) (h : Mem.wf s.mem) :
    Mem.wf (s.halfWritten a v).mem := by
  rcases s.halfWritten_cases a v with e | e <;> rw [e]
  · exact h
  · exact Mem.wf_setByte _ _ h

/-- Every memory operation keeps the canonical form: a byte write. -/
theorem Mem.wf_write {s t : State} {a : Int} {v : Byte} (h : Mem.wf s.mem)
    (hw : s.write a v = some t) : Mem.wf t.mem := by
  obtain ⟨-, rfl⟩ := State.write_eq_some.1 hw
  exact Mem.wf_setByte _ _ h

/-- Every memory operation keeps the canonical form: a write whose failure is not looked at. -/
theorem Mem.wf_poke {s : State} (a : Int) (v : Byte) (h : Mem.wf s.mem) :
    Mem.wf (s.poke a v).mem := by
  rcases s.poke_cases a v with e | ⟨-, e⟩ <;> rw [e]
  · exact h
  · exact Mem.wf_setByte _ _ h

/-- Memory at reset is in canonical form. -/
theorem Mem.wf_reset : Mem.wf State.reset.mem := by decide

end Sys2Proof.Machine
end

