-- ==== Sys2Proof/Laws/Bulk.lean ====
section
/-! SUPPORT. The laws of handler writes and of the bulk operations: each keeps the canonical form of memory,
the bounds of what it lists, and the parameters. -/

namespace Sys2Proof.Machine

/-- What every write through the capability keeps: the parameters, and the two facts about memory. -/
def State.MemKept (s t : State) : Prop :=
  t.cfg = s.cfg ∧ (Mem.wf s.mem → Mem.wf t.mem) ∧
    (Mem.within s.cfg.memSize s.mem → Mem.within t.cfg.memSize t.mem)

theorem State.MemKept.refl (s : State) : s.MemKept s := ⟨rfl, id, id⟩

theorem State.MemKept.trans {s t u : State} (h : s.MemKept t) (k : t.MemKept u) : s.MemKept u :=
  ⟨k.1.trans h.1, k.2.1 ∘ h.2.1, k.2.2 ∘ h.2.2⟩

/-- An update that touches neither memory nor the parameters keeps both. -/
theorem State.MemKept.of_eq {s t : State} (hc : t.cfg = s.cfg) (hm : t.mem = s.mem) : s.MemKept t :=
  ⟨hc, by rw [hm]; exact id, by rw [hm, hc]; exact id⟩

theorem State.MemKept.setByte {s : State} {a : Int} (v : Byte) (h : s.inRange a = true) :
    s.MemKept (s.setByte a.toNat v) :=
  ⟨rfl, Mem.wf_setByte _ _, fun hw => Mem.within_setByte _ hw (by
    have := (s.inRange_iff a).1 h; simp only [State.setByte_cfg]; omega)⟩

theorem State.MemKept.poke (s : State) (a : Int) (v : Byte) : s.MemKept (s.poke a v) := by
  rcases s.poke_cases a v with e | ⟨h, e⟩ <;> rw [e]
  · exact .refl s
  · exact .setByte v h

theorem State.MemKept.write {s t : State} {a : Int} {v : Byte} (h : s.write a v = some t) :
    s.MemKept t := by
  obtain ⟨hr, rfl⟩ := State.write_eq_some.1 h
  exact .setByte v hr

theorem State.MemKept.write2 {s t : State} {a : Int} {v : Word} (h : s.write2 a v = .ok t) :
    s.MemKept t := by
  obtain ⟨h0, h1, rfl⟩ := State.write2_eq_ok.1 h
  exact (State.MemKept.setByte _ h0).trans (.setByte _ h1)

theorem State.MemKept.halfWritten {s : State} {a : Int} (v : Word) (h : s.inRange a = true) :
    s.MemKept (s.halfWritten a v) := by
  rcases s.halfWritten_cases a v with e | e <;> rw [e]
  · exact .of_eq rfl rfl
  · exact (State.MemKept.setByte _ h).trans (.of_eq rfl rfl)

theorem State.MemKept.placeWord (s : State) (a : Int) (w : Word) : s.MemKept (s.placeWord a w) :=
  (State.MemKept.poke s _ _).trans (.poke _ _ _)

theorem State.MemKept.copyForward {s t : State} {src dst : Int} {n : Nat}
    (h : s.copyForward src dst n = .ok t) : s.MemKept t := by
  induction n generalizing s src dst with
  | zero => cases h; exact .refl _
  | succ n ih =>
    simp only [State.copyForward] at h
    split at h
    · cases h
    · split at h
      · cases h
      · next hw => exact (State.MemKept.write hw).trans (ih h)

theorem State.MemKept.writeBytes {s t : State} {dst : Int} {bytes : List Byte}
    (h : s.writeBytes dst bytes = .ok t) : s.MemKept t := by
  induction bytes generalizing s dst with
  | nil => cases h; exact .refl _
  | cons b rest ih =>
    simp only [State.writeBytes] at h
    split at h
    · cases h
    · next hw => exact (State.MemKept.write hw).trans (ih h)

theorem State.MemKept.smearFrom (s : State) (draw : Nat) (dst : Int) (n : Nat) :
    s.MemKept (s.smearFrom draw dst n) := by
  induction n with
  | zero => exact .refl s
  | succ n ih => exact ih.trans (.poke _ _ _)

theorem State.MemKept.smeared (s : State) (dst : Int) (n : Nat) : s.MemKept (s.smeared dst n) :=
  (State.MemKept.smearFrom s _ dst n).trans (.of_eq rfl rfl)

theorem State.MemKept.copy {s t : State} {src dst : Int} {n : Nat} (h : s.copy src dst n = .ok t) :
    s.MemKept t := by
  unfold State.copy at h
  split at h
  · next hc => cases h; exact .copyForward hc
  · cases h

theorem State.MemKept.copy_failed {s t : State} {src dst bad : Int} {n : Nat}
    (h : s.copy src dst n = .error (bad, t)) : s.MemKept t := by
  unfold State.copy at h
  split at h
  · cases h
  · cases h; exact .smeared _ _ _

theorem State.MemKept.loadImage {s t : State} {base : Int} {bytes : List Byte}
    (h : s.loadImage base bytes = .ok t) : s.MemKept t := by
  unfold State.loadImage at h
  split at h
  · next hc => cases h; exact .writeBytes hc
  · cases h

theorem State.MemKept.loadImage_failed {s t : State} {base bad : Int} {bytes : List Byte}
    (h : s.loadImage base bytes = .error (bad, t)) : s.MemKept t := by
  unfold State.loadImage at h
  split at h
  · cases h
  · cases h; exact .smeared _ _ _

/-! ### Handler writes -/

theorem HandlerAction.apply_memKept (s : State) (x : HandlerAction) :
    s.MemKept (HandlerAction.apply s x) := by
  cases x with
  | setReg r v => exact .of_eq rfl rfl
  | write addr v => exact .poke s _ _
  | setHalt b => exact .of_eq rfl rfl
  | setEntry id e => exact .of_eq rfl rfl

theorem HandlerAction.apply_table (s : State) (x : HandlerAction) (h : Table.wf s.table) :
    Table.wf (HandlerAction.apply s x).table := by
  cases x with
  | setReg r v => exact h
  | write addr v =>
    rcases s.poke_cases addr.toNat v with e | ⟨-, e⟩ <;> simpa [HandlerAction.apply, e] using h
  | setHalt b => exact h
  | setEntry id e => exact Table.wf_setEntry id e h

/-- A handler's writes keep the canonical forms and the parameters. -/
theorem State.afterActions_kept (s : State) (acts : List HandlerAction) :
    s.MemKept (s.afterActions acts) ∧ (Table.wf s.table → Table.wf (s.afterActions acts).table) := by
  induction acts generalizing s with
  | nil => exact ⟨.refl s, id⟩
  | cons x rest ih =>
    obtain ⟨h1, h2⟩ := ih (HandlerAction.apply s x)
    exact ⟨(HandlerAction.apply_memKept s x).trans h1,
      fun h => h2 (HandlerAction.apply_table s x h)⟩

end Sys2Proof.Machine
end

