-- ==== Sys2Proof/Laws/PerInstr.lean ====
section
/-! SUPPORT. The statements made of every instruction, one lemma per constructor: where the parts of its word
stand (R70, R71, R84 of spec/30_encoding.md). -/

namespace Sys2Proof.Laws.WordParts

/-- Under every map of the opcodes, the low byte of an instruction's word is the code of its tag, and every
bit its shape does not use is 0 (R70, R84). -/
def Statement (i : Instr) : Prop :=
  ∀ cfg : Config, lowByte (encode cfg i) = codeOf cfg.opcodes i.tag ∧
    encode cfg i &&& i.unusedBits = 0#16

theorem lowByte_encode (cfg : Config) (i : Instr) :
    lowByte (encode cfg i) = codeOf cfg.opcodes i.tag := Machine.lowByte_wordOfBytes _ _

/-- Masking a word byte by byte. -/
theorem and_wordOfBytes (lo hi a b : Byte) :
    wordOfBytes lo hi &&& wordOfBytes a b = wordOfBytes (lo &&& a) (hi &&& b) := by
  exact BitVec.and_append

theorem nop : Statement .nop := fun cfg =>
  ⟨lowByte_encode cfg _, by
    have h : (0xFF00#16 : Word) = wordOfBytes 0#8 0xFF#8 := by decide
    simp only [encode, Instr.unusedBits, h, and_wordOfBytes, Instr.operandByte]; simp [wordOfBytes]⟩

theorem push (imm : Byte) : Statement (.push imm) := fun cfg =>
  ⟨lowByte_encode cfg _, BitVec.and_zero⟩

theorem popRegister (r : Reg) : Statement (.popRegister r) := fun cfg =>
  ⟨lowByte_encode cfg _, by
    have h : (0xF000#16 : Word) = wordOfBytes 0#8 0xF0#8 := by decide
    simp only [encode, Instr.unusedBits, h, and_wordOfBytes, Instr.operandByte]
    cases r <;> simp [wordOfBytes, Reg.toField, Reg.ord]⟩

theorem pushRegister (r : Reg) : Statement (.pushRegister r) := fun cfg =>
  ⟨lowByte_encode cfg _, by
    have h : (0xF000#16 : Word) = wordOfBytes 0#8 0xF0#8 := by decide
    simp only [encode, Instr.unusedBits, h, and_wordOfBytes, Instr.operandByte]
    cases r <;> simp [wordOfBytes, Reg.toField, Reg.ord]⟩

theorem addStack : Statement .addStack := fun cfg =>
  ⟨lowByte_encode cfg _, by
    have h : (0xFF00#16 : Word) = wordOfBytes 0#8 0xFF#8 := by decide
    simp only [encode, Instr.unusedBits, h, and_wordOfBytes, Instr.operandByte]; simp [wordOfBytes]⟩

theorem addRegister (r1 r2 : Reg) : Statement (.addRegister r1 r2) := fun cfg =>
  ⟨lowByte_encode cfg _, BitVec.and_zero⟩

theorem signal (id : Byte) : Statement (.signal id) := fun cfg =>
  ⟨lowByte_encode cfg _, BitVec.and_zero⟩

end Sys2Proof.Laws.WordParts
end

