-- ==== Sys2Proof/Laws/Run.lean ====
section
/-! SUPPORT. Laws of runs: what one more step adds to a run of steps, and how the runs a host makes under a
policy begin (R199 to R201 of spec/70_reset_and_hazards.md). -/

namespace Sys2Proof.Machine

/-- A run whose first step succeeds goes on from the state reached. -/
theorem run_succ_next {s t : State} (h : step s = .next t) (k : Nat) :
    Sys2Proof.core.run (k + 1) s = Sys2Proof.core.run k t := by
  have e : Sys2Proof.core.step s = .next t := h
  refine (Host.Core.run.eq_2 Sys2Proof.core s k).trans ?_
  rw [e]

/-- A run whose first step stops with a fault is that fault. -/
theorem run_succ_fault {s : State} {f : Fault} (h : step s = .fault f) (k : Nat) :
    Sys2Proof.core.run (k + 1) s = .fault f := by
  have e : Sys2Proof.core.step s = .fault f := h
  refine (Host.Core.run.eq_2 Sys2Proof.core s k).trans ?_
  rw [e]

/-- No step at all is quiet. -/
theorem State.quietly_zero {s u : State} : s.Quietly 0 u ↔ u = s :=
  ⟨fun h => by cases h.1; rfl, fun h => h ▸ ⟨rfl, fun j hj => absurd hj (Nat.not_lt_zero j)⟩⟩

/-- Quiet steps are a first quiet step, and quiet steps from the state it reaches. -/
theorem State.quietly_succ {s u : State} {k : Nat} :
    s.Quietly (k + 1) u ↔ ∃ t, step s = .next t ∧ t.halt = false ∧ t.Quietly k u := by
  constructor
  · rintro ⟨h, hq⟩
    obtain ⟨v, hv, hh⟩ := hq 0 (Nat.succ_pos k)
    cases hs : step s with
    | next t =>
      rw [run_succ_next hs] at h hv
      cases hv
      refine ⟨_, rfl, hh, h, fun j hj => ?_⟩
      simpa only [run_succ_next hs] using hq (j + 1) (Nat.succ_lt_succ hj)
    | fault f => rw [run_succ_fault hs] at hv; cases hv
    | refused r =>
      have e : Sys2Proof.core.step s = .refused r := hs
      have := (Host.Core.run.eq_2 Sys2Proof.core s 0).symm.trans hv
      rw [e] at this; cases this
  · rintro ⟨t, hs, hh, h, hq⟩
    refine ⟨(run_succ_next hs k).trans h, fun j hj => ?_⟩
    cases j with
    | zero => exact ⟨t, run_succ_next hs 0, hh⟩
    | succ j => simpa only [run_succ_next hs] using hq j (Nat.lt_of_succ_lt_succ hj)

/-- A state that a step leaves as it is, with halt false, hangs. -/
theorem State.runHangs_of_step_eq {s : State} (h : step s = .next s) (hh : s.halt = false) :
    s.RunHangs := .inl fun k => by
  induction k with
  | zero => exact ⟨s, State.quietly_zero.2 rfl⟩
  | succ k ih => obtain ⟨u, hu⟩ := ih; exact ⟨u, State.quietly_succ.2 ⟨s, h, hh, hu⟩⟩

/-- Under either policy the first run ends as the run loop of the default policy does. -/
theorem runs_head (policy : FaultPolicy) (n : Nat) (s : State) :
    (runs policy n s).head? = some (runLoop n s) := by
  induction n generalizing s with
  | zero => rfl
  | succ n ih =>
    simp only [runs, runLoop]
    split
    · split
      · rfl
      · exact ih _
    all_goals rfl

/-- A host that stops at the first failed step makes one run. -/
theorem runs_stop (n : Nat) (s : State) : runs .stop n s = [runLoop n s] := by
  induction n generalizing s with
  | zero => rfl
  | succ n ih =>
    simp only [runs, runLoop]
    split
    · split
      · rfl
      · exact ih _
    all_goals rfl

end Sys2Proof.Machine
end

