-- ==== Sys2Proof/Laws/Step.lean ====
section
/-! SUPPORT. Once for each shared operation of a step, everything it can do: the fetch, the push, the slot
below the stack pointer, the handler call; and what each instruction answers, by cases. -/

namespace Sys2Proof.Machine

/-! ### The push (R125, R135) -/

/-- Everything a push can do: complete; overflow SP; find the first byte out of range; or find the second,
and leave the first a draw. -/
theorem pushWord_cases (v : Word) (s : State) :
    (s.spNat + 2 ≤ 0xFFFF ∧ s.inRange s.spNat = true ∧ s.inRange ((s.spNat : Int) + 1) = true ∧
      pushWord v s = .next (((s.setByte s.spNat (lowByte v)).setByte (s.spNat + 1)
        (highByte v)).setSpNat (s.spNat + 2))) ∨
    (s.spNat + 2 > 0xFFFF ∧ pushWord v s = s.raise (.memoryFault ((s.spNat + 2 : Nat) : Int))) ∨
    (s.spNat + 2 ≤ 0xFFFF ∧ s.inRange s.spNat = false ∧
      pushWord v s = s.raise (.memoryFault s.spNat)) ∨
    (s.spNat + 2 ≤ 0xFFFF ∧ s.inRange s.spNat = true ∧ s.inRange ((s.spNat : Int) + 1) = false ∧
      pushWord v s = (s.halfWritten s.spNat v).raise (.memoryFault ((s.spNat : Int) + 1))) := by
  have e : ((s.spNat : Int) + 1).toNat = s.spNat + 1 := by omega
  by_cases ho : s.spNat + 2 > 0xFFFF
  · exact .inr (.inl ⟨ho, by simp [pushWord, ho]⟩)
  · have ho' : s.spNat + 2 ≤ 0xFFFF := by omega
    cases h0 : s.inRange s.spNat
    · exact .inr (.inr (.inl ⟨ho', rfl, by simp [pushWord, ho, State.write2, h0]⟩))
    · cases h1 : s.inRange ((s.spNat : Int) + 1)
      · exact .inr (.inr (.inr ⟨ho', rfl, rfl, by simp [pushWord, ho, State.write2, h0, h1]⟩))
      · exact .inl ⟨ho', rfl, rfl, by simp [pushWord, ho, State.write2, h0, h1, e]⟩

/-! ### The slot below the stack pointer (R130) -/

/-- Reading the slot succeeds exactly when it lies in memory, and gives its two bytes. -/
theorem slotBelow_eq_ok {s : State} {top : Nat} {v : Word} :
    slotBelow s top = .ok v ↔ 2 ≤ top ∧ s.inRange ((top : Int) - 1) = true ∧
      wordOfBytes (s.byteAt (top - 2)) (s.byteAt (top - 1)) = v := by
  unfold slotBelow
  by_cases ht : top < 2
  · simp only [ht, if_true, reduceCtorEq, false_iff]; omega
  · have e0 : ((top : Int) - 2).toNat = top - 2 := by omega
    have e1 : (top : Int) - 2 + 1 = (top : Int) - 1 := by omega
    have e2 : ((top : Int) - 1).toNat = top - 1 := by omega
    simp only [ht, if_false, State.read2_eq_ok, e0, e1, e2, State.inRange_iff]
    constructor
    · rintro ⟨-, h, hv⟩; exact ⟨by omega, h, hv⟩
    · rintro ⟨h2, h, hv⟩; exact ⟨by omega, h, hv⟩

/-- Reading the slot fails below the bottom of memory, or at its first byte out of range. -/
theorem slotBelow_eq_error {s : State} {top : Nat} {bad : Int} :
    slotBelow s top = .error bad ↔ (top < 2 ∧ bad = (top : Int) - 2) ∨
      (2 ≤ top ∧ s.inRange ((top : Int) - 2) = false ∧ bad = (top : Int) - 2) ∨
      (2 ≤ top ∧ s.inRange ((top : Int) - 2) = true ∧ s.inRange ((top : Int) - 1) = false ∧
        bad = (top : Int) - 1) := by
  unfold slotBelow
  by_cases ht : top < 2
  · have : ¬ 2 ≤ top := by omega
    simp only [ht, if_true, this, false_and, or_false, true_and, Except.error.injEq]
    exact eq_comm
  · have h2 : 2 ≤ top := by omega
    have e1 : (top : Int) - 2 + 1 = (top : Int) - 1 := by omega
    simp [ht, h2, State.read2_eq_error, e1]

/-! ### AddStack (R140) -/

/-- When the second pop's slot lies in memory so does the first's, and the sum is written without a
fault ("cannot fail: both bytes were just read"). -/
theorem execAddStack_ok {s : State} {a b : Word} (ha : slotBelow s s.spNat = .ok a)
    (hb : slotBelow s (s.spNat - 2) = .ok b) :
    execAddStack s = .next (((s.setByte (s.spNat - 4) (lowByte (add16 a b))).setByte (s.spNat - 3)
      (highByte (add16 a b))).setSpNat (s.spNat - 2)) := by
  obtain ⟨h2, h3, -⟩ := slotBelow_eq_ok.1 hb
  have e0 : ((s.spNat : Int) - 4).toNat = s.spNat - 4 := by omega
  have e1 : ((s.spNat : Int) - 4 + 1).toNat = s.spNat - 3 := by omega
  have r := (s.inRange_iff _).1 h3
  have r0 : s.inRange ((s.spNat : Int) - 4) = true := (s.inRange_iff _).2 (by omega)
  have r1 : s.inRange ((s.spNat : Int) - 4 + 1) = true := (s.inRange_iff _).2 (by omega)
  simp [execAddStack, ha, hb, State.write2, r0, r1, e0, e1]

/-- Everything `AddStack` can do. -/
theorem execAddStack_cases (s : State) :
    (∃ a b, slotBelow s s.spNat = .ok a ∧ slotBelow s (s.spNat - 2) = .ok b ∧
      execAddStack s = .next (((s.setByte (s.spNat - 4) (lowByte (add16 a b))).setByte
        (s.spNat - 3) (highByte (add16 a b))).setSpNat (s.spNat - 2))) ∨
    (∃ bad, slotBelow s s.spNat = .error bad ∧ execAddStack s = s.raise (.memoryFault bad)) ∨
    (∃ a bad, slotBelow s s.spNat = .ok a ∧ slotBelow s (s.spNat - 2) = .error bad ∧
      execAddStack s = (s.halfPopped s.spNat).raise (.memoryFault bad)) := by
  cases ha : slotBelow s s.spNat with
  | error bad => exact .inr (.inl ⟨bad, rfl, by simp [execAddStack, ha]⟩)
  | ok a =>
    cases hb : slotBelow s (s.spNat - 2) with
    | error bad => exact .inr (.inr ⟨a, bad, rfl, rfl, by simp [execAddStack, ha, hb]⟩)
    | ok b => exact .inl ⟨a, b, rfl, rfl, execAddStack_ok ha hb⟩

/-! ### PopRegister (R130) -/

/-- Everything `PopRegister` can do. -/
theorem execPopRegister_cases (r : Reg) (s : State) :
    (∃ v, slotBelow s s.spNat = .ok v ∧
      execPopRegister r s = .next ((s.setSpNat (s.spNat - 2)).setReg r v)) ∨
    (∃ bad, slotBelow s s.spNat = .error bad ∧
      execPopRegister r s = s.raise (.memoryFault bad)) := by
  cases h : slotBelow s s.spNat with
  | error bad => exact .inr ⟨bad, rfl, by simp [execPopRegister, h]⟩
  | ok v => exact .inl ⟨v, rfl, by simp [execPopRegister, h]⟩

/-! ### Signal (R156) -/

/-- Everything `Signal` can do. -/
theorem execSignal_cases (id : Byte) (s : State) :
    (s.entry id = none ∧
      execSignal id s = s.raise (.dispatchFault (.unregisteredSignal id))) ∨
    (s.entry id = some .halt ∧ execSignal id s = .next (s.setHalt true)) ∨
    (∃ n, s.entry id = some (.host n) ∧ Config.hostHandler n s = none ∧
      execSignal id s = .fault (.handlerHang id)) ∨
    (∃ n o, s.entry id = some (.host n) ∧ Config.hostHandler n s = some o ∧
      execSignal id s = s.nextDraw.finishSignal id o) := by
  cases he : s.entry id with
  | none => exact .inl ⟨rfl, by simp [execSignal, he]⟩
  | some h =>
    cases h with
    | halt => exact .inr (.inl ⟨rfl, by
        simp [execSignal, he, callHandler, State.finishSignal, State.afterActions,
          HandlerAction.apply]⟩)
    | host n =>
      cases ho : Config.hostHandler n s with
      | none => exact .inr (.inr (.inl ⟨n, rfl, ho, by simp [execSignal, he, callHandler, ho]⟩))
      | some o =>
        exact .inr (.inr (.inr ⟨n, o, rfl, ho, by simp [execSignal, he, callHandler, ho]⟩))

/-- A handler's result is the step's, on the state its writes leave. -/
theorem State.finishSignal_cases (s : State) (id : Byte) (o : HandlerOutcome) :
    (o.failure = none ∧ s.finishSignal id o = .next (s.afterActions o.actions)) ∨
    (∃ p, o.failure = some p ∧
      s.finishSignal id o = (s.afterActions o.actions).raise (.handlerFault id p)) := by
  cases h : o.failure with
  | none => exact .inl ⟨rfl, by simp [State.finishSignal, h]⟩
  | some p => exact .inr ⟨p, rfl, by simp [State.finishSignal, h]⟩

/-! ### Fetch and step (R110 to R113) -/

/-- Everything the fetch, advance and decode of a step can do. -/
theorem fetch_cases (s : State) :
    (∃ bad, s.read2 s.pcNat = .error bad ∧ fetch s = .error (.failed (.memoryFault bad) s)) ∨
    (∃ w, s.read2 s.pcNat = .ok w ∧ s.pcNat + 2 > 0xFFFF ∧
      fetch s = .error (.failed (.memoryFault ((s.pcNat + 2 : Nat) : Int)) s)) ∨
    (∃ w why, s.read2 s.pcNat = .ok w ∧ s.pcNat + 2 ≤ 0xFFFF ∧ decode s.cfg w = .error why ∧
      fetch s = .error (.failed (.decodeFault why) (s.advanced s.pcNat))) ∨
    (∃ w i, s.read2 s.pcNat = .ok w ∧ s.pcNat + 2 ≤ 0xFFFF ∧ decode s.cfg w = .ok i ∧
      fetch s = .ok (i, s.advanced s.pcNat)) := by
  cases hr : s.read2 s.pcNat with
  | error bad => exact .inl ⟨bad, rfl, by simp [fetch, hr]⟩
  | ok w =>
    by_cases ho : s.pcNat + 2 > 0xFFFF
    · exact .inr (.inl ⟨w, rfl, ho, by simp [fetch, hr, ho]⟩)
    · have ho' : s.pcNat + 2 ≤ 0xFFFF := by omega
      cases hd : decode s.cfg w with
      | error why => exact .inr (.inr (.inl ⟨w, why, rfl, ho', hd, by simp [fetch, hr, ho, hd]⟩))
      | ok i => exact .inr (.inr (.inr ⟨w, i, rfl, ho', hd, by simp [fetch, hr, ho, hd]⟩))

/-- A step that answers a next state ran a decoded instruction on the advanced state. -/
theorem step_next {s t : State} (h : step s = .next t) :
    ∃ i, fetch s = .ok (i, s.advanced s.pcNat) ∧ exec i (s.advanced s.pcNat) = .next t := by
  unfold step at h
  rcases fetch_cases s with ⟨_, -, e⟩ | ⟨_, -, -, e⟩ | ⟨_, _, -, -, -, e⟩ | ⟨_, i, -, -, -, e⟩ <;>
    rw [e] at h
  · cases h
  · cases h
  · cases h
  · exact ⟨i, e, h⟩

end Sys2Proof.Machine
end

