-- ==== Sys2Proof/Tests/Slice0.lean ====
section
/-! SUPPORT. Tests of the model. Expected results come from spec/95_test_vectors.md (the vector is named
in each docstring) or from the spec's encoding of a word; a test_witness theorem shows data that meet
the hypotheses of the statement it names. -/

namespace Sys2Proof.Tests

open Sys2Proof Sys2Proof.Machine

/-! ### Small machines -/

/-- A machine of `size` bytes under the default codes, with SP, PC and some bytes of memory set. -/
def machine (size : Nat) (sp pc : Word) (bytes : Mem) : State :=
  { State.construct ⟨size, OpcodeMap.default, true⟩ with
    regs := { RegFile.zero with sp := sp, pc := pc }, mem := bytes }

/-- The machine of the vectors that name PC = 0x40: the word at PC, and SP. -/
def vector (sp w : Word) : State := (machine 8192 sp 0x40#16 []).withFetchWord 16 w.toNat

/-- The machine right after reset with one entry of its handler table set. -/
def withEntry (id : Byte) (h : Handler) : State := State.reset.setEntry id (some h)

/-- The default parameters with RESERVED_BITS_STRICT = false. -/
def lax : Config := ⟨8192, OpcodeMap.default, false⟩

/-- Whether a step goes on, to a state that passes a check. -/
def nextIs (o : Host.Outcome State Fault Refusal) (check : State → Bool) : Bool :=
  match o with
  | .next t => check t
  | .fault _ => false
  | .refused _ => false

/-- Whether a step fails as said, leaving a state that passes a check. -/
def failsAs (o : Host.Outcome State Fault Refusal) (why : Failure) (check : State → Bool) : Bool :=
  match o with
  | .next _ => false
  | .fault (.failed f left) => f == why && check left
  | .fault (.handlerHang _) => false
  | .refused _ => false

/-- Whether a word decodes to an instruction. -/
def decodesTo (cfg : Config) (w : Word) (i : Instr) : Bool :=
  match decode cfg w with
  | .ok j => j == i
  | .error _ => false

/-- Whether a word is refused, and how. -/
def refusedAs (cfg : Config) (w : Word) (why : DecodeFault) : Bool :=
  match decode cfg w with
  | .ok _ => false
  | .error e => e == why

/-- Whether assembly under the default parameters gives an image. -/
def assemblesTo (text : String) (image : List Byte) : Bool :=
  match assemble AsmParams.default Config.default text.toList with
  | .ok bytes => bytes == image
  | .error _ => false

/-- Whether assembly under the default parameters fails, and how. -/
def parseFails (text : String) (line : Nat) (why : ParseFault) : Bool :=
  match assemble AsmParams.default Config.default text.toList with
  | .ok _ => false
  | .error f => f == .parseFault line why

/-! ### WellFormed (R7, R47, R75, R94): each check refuses an ill-formed term -/

theorem test_wf_accepts_the_defaults :
    Config.default.wf ∧ AsmParams.default.wf ∧ Config.wf ⟨1, OpcodeMap.default, true⟩ ∧
      Config.wf ⟨65536, OpcodeMap.default, false⟩ := by decide

theorem test_wf_refuses_no_memory : ¬ Config.memSizeOk ⟨0, OpcodeMap.default, true⟩ := by decide

theorem test_wf_refuses_too_much_memory :
    ¬ Config.memSizeOk ⟨65537, OpcodeMap.default, true⟩ := by decide

theorem test_wf_refuses_a_shared_code :
    ¬ OpcodeMap.injective { OpcodeMap.default with signal := 0x01#8 } := by decide

theorem test_wf_refuses_equal_markers :
    ¬ AsmParams.wf { AsmParams.default with binPrefix := '$' } := by decide

/-! ### Decoding: words written out from the fields of R71, operand byte first -/

/-- V-DEC-1, 3, 4, 6, 11, 12, 14, 16 and 19; reg2, then reg1, then the code (R71, R76). -/
theorem test_decode_words :
    decodesTo Config.default (0b00000000#8 ++ 0b00000000#8) .nop = true ∧
    decodesTo Config.default (0b00001010#8 ++ 0b00000001#8) (.push 10#8) = true ∧
    decodesTo Config.default (0b11111111#8 ++ 0b00000001#8) (.push 255#8) = true ∧
    decodesTo Config.default (0b0000#4 ++ 0b0111#4 ++ 0b00000010#8) (.popRegister .flags) = true ∧
    decodesTo Config.default (0b0000#4 ++ 0b0100#4 ++ 0b00000011#8) (.pushRegister .sp) = true ∧
    decodesTo Config.default (0b00000000#8 ++ 0b00000100#8) .addStack = true ∧
    decodesTo Config.default (0b0001#4 ++ 0b0000#4 ++ 0b00000101#8) (.addRegister .a .b) = true ∧
    decodesTo Config.default (0b0010#4 ++ 0b0101#4 ++ 0b00000101#8) (.addRegister .pc .c) = true ∧
    decodesTo Config.default (0b11110000#8 ++ 0b00000110#8) (.signal 0xF0#8) = true := by decide

/-- V-DEC-2, 7, 8, 9, 13, 17, 18, 22 and 24, strict. -/
theorem test_decode_refuses :
    refusedAs Config.default 0x0100#16 (.reservedBitsSet 0x0100#16) = true ∧
    refusedAs Config.default 0x0802#16 (.unknownRegister 8#4) = true ∧
    refusedAs Config.default 0x1002#16 (.reservedBitsSet 0x1002#16) = true ∧
    refusedAs Config.default 0x1802#16 (.unknownRegister 8#4) = true ∧
    refusedAs Config.default 0x8004#16 (.reservedBitsSet 0x8004#16) = true ∧
    refusedAs Config.default 0x8005#16 (.unknownRegister 8#4) = true ∧
    refusedAs Config.default 0x9805#16 (.unknownRegister 8#4) = true ∧
    refusedAs Config.default 0x0807#16 (.unknownOpcode 0x07#8) = true ∧
    refusedAs Config.default 0xFFFF#16 (.unknownOpcode 0xFF#8) = true := by decide

/-- V-DEC-2, 8, 9 and 13 with RESERVED_BITS_STRICT = false. -/
theorem test_decode_lax :
    decodesTo lax 0x0100#16 .nop = true ∧ decodesTo lax 0x1002#16 (.popRegister .a) = true ∧
    refusedAs lax 0x1802#16 (.unknownRegister 8#4) = true ∧
    decodesTo lax 0x8004#16 .addStack = true := by decide

/-- V-DEC-25: the codes are a parameter. -/
theorem test_decode_other_codes :
    refusedAs ⟨8192, ⟨0x10#8, 0x11#8, 0x12#8, 0x13#8, 0x14#8, 0x15#8, 0x16#8⟩, true⟩ 0x0000#16
      (.unknownOpcode 0x00#8) = true ∧
    decodesTo ⟨8192, ⟨0x10#8, 0x11#8, 0x12#8, 0x13#8, 0x14#8, 0x15#8, 0x16#8⟩, true⟩ 0x0A11#16
      (.push 10#8) = true := by decide

/-- V-ENC-2, 3, 4, 5, 7 and 8, with the image bytes. -/
theorem test_encode_bytes :
    encodeBytes Config.default (.push 0xFF#8) = [0x01#8, 0xFF#8] ∧
    encodeBytes Config.default (.popRegister .flags) = [0x02#8, 0x07#8] ∧
    encodeBytes Config.default (.pushRegister .pc) = [0x03#8, 0x05#8] ∧
    encodeBytes Config.default (.addRegister .flags .a) = [0x05#8, 0x07#8] ∧
    encodeBytes Config.default (.addRegister .pc .pc) = [0x05#8, 0x55#8] ∧
    encodeBytes Config.default (.signal 0xFF#8) = [0x06#8, 0xFF#8] := by decide

/-! ### Steps -/

/-- V-FET-1 and V-FET-4: a straddling fetch, and an advance that would leave 16 bits. -/
theorem test_fetch_faults :
    failsAs (step (machine 8192 0#16 8191#16 [])) (.memoryFault 8192)
      (fun t => t.pcNat == 8191) = true ∧
    failsAs (step (machine 65536 0#16 0xFFFE#16 [])) (.memoryFault 0x10000)
      (fun t => t.pcNat == 0xFFFE) = true := by decide

/-- V-FET-7: a decode fault keeps the advance. -/
theorem test_decode_fault_advances :
    failsAs (step (machine 8192 0#16 0#16 [(0, 0x07#8)])) (.decodeFault (.unknownOpcode 0x07#8))
      (fun t => t.pcNat == 2) = true := by decide

/-- P4: one Nop from reset. -/
theorem test_nop : nextIs (step State.reset) (fun t => t.pcNat == 2 && t.mem == []) = true := by
  decide

/-- V-PUSH-1. -/
theorem test_push : nextIs (step (vector 0x1000#16 0x2A01#16))
    (fun t => t.wordAt 0x1000 == 0x002A#16 && t.spNat == 0x1002) = true := by decide

/-- V-PUSH-6: the SP check comes before any write. -/
theorem test_push_overflow : failsAs (step (vector 0xFFFE#16 0x0101#16)) (.memoryFault 0x10000)
    (fun t => t.spNat == 0xFFFE && t.pcNat == 0x42) = true := by decide

/-- V-POP-4: PopRegister SP leaves the popped value. -/
theorem test_pop_sp : nextIs (step (((vector 0x1002#16 0x0402#16).poke 0x1000 0x34#8).poke 0x1001 0x12#8))
    (fun t => t.spNat == 0x1234) = true := by decide

/-- V-POP-3: a pop below address 0. -/
theorem test_pop_underflow : failsAs (step (vector 1#16 0x0002#16)) (.memoryFault (-1))
    (fun t => t.spNat == 1 && t.pcNat == 0x42) = true := by decide

/-- V-PSHR-2: PushRegister SP stores the old SP. -/
theorem test_push_sp : nextIs (step (vector 0x1000#16 0x0403#16))
    (fun t => t.wordAt 0x1000 == 0x1000#16 && t.spNat == 0x1002) = true := by decide

/-- V-PSHR-3, at PC = 0x40: PushRegister PC stores the address of the next word. -/
theorem test_push_pc : nextIs (step (vector 0x1000#16 0x0503#16))
    (fun t => t.wordAt 0x1000 == 0x0042#16) = true := by decide

/-- V-ADS-2: the sum wraps, and the slot above keeps its bytes. -/
theorem test_addStack : nextIs (step (((vector 0x1004#16 0x0004#16).placeWord 0x1000 0xFFFF#16).placeWord
    0x1002 0x0001#16))
    (fun t => t.wordAt 0x1000 == 0x0000#16 && t.wordAt 0x1002 == 0x0001#16 && t.spNat == 0x1002) =
      true := by decide

/-- V-ADS-8: the first pop is out of range. -/
theorem test_addStack_faults : failsAs (step (vector 8194#16 0x0004#16)) (.memoryFault 8192)
    (fun t => t.spNat == 8194) = true := by decide

/-- V-ADR-2 and V-ADR-7: both reads come before the write; SP takes no bound check. -/
theorem test_addRegister :
    nextIs (step ((vector 0#16 0x0005#16).setReg .a 0x8000#16)) (fun t => t.getReg .a == 0#16) = true ∧
    nextIs (step ((vector 0x1000#16 0x0405#16).setReg .a 0xFFFE#16))
      (fun t => t.getReg .sp == 0x0FFE#16) = true := by decide

/-- V-ADR-6, at PC = 0x40: PC reads as the address of the next word. -/
theorem test_addRegister_pc : nextIs (step (vector 0#16 0x5505#16)) (fun t => t.pcNat == 0x84) = true := by
  decide

/-- V-SIG-1: the halt handler. -/
theorem test_signal_halt : nextIs (step ((withEntry 0xF0#8 .halt).withFetchWord 16 0xF006))
    (fun t => t.halt && t.pcNat == 2) = true := by decide

/-- V-SIG-2: no handler. -/
theorem test_signal_empty : failsAs (step (State.reset.withFetchWord 16 0x0106))
    (.dispatchFault (.unregisteredSignal 1#8)) (fun t => t.pcNat == 2 && !t.halt) = true := by decide

/-- The run loop of R199 stops after the step that sets halt, and checks halt after a step only. -/
theorem test_run_halts :
    (match runLoop 2 (((withEntry 0xF0#8 .halt).withFetchWord 16 0xF006).setHalt true) with
      | .halted t => t.halt && t.pcNat == 2
      | .faulted _ _ => false
      | .hang _ => false
      | .cutShort _ => false
      | .refused _ => false) = true := by decide

/-- E7, V-ASM-2 and V-ASM-3: images. -/
theorem test_assemble :
    assemblesTo "Push 10\nPush 8\nAddStack\nPopRegister A"
      [0x01#8, 0x0A#8, 0x01#8, 0x08#8, 0x04#8, 0x00#8, 0x02#8, 0x00#8] = true ∧
    assemblesTo "Push $FF" [0x01#8, 0xFF#8] = true ∧
    assemblesTo "Push %101" [0x01#8, 0x05#8] = true := by decide

/-- V-ASM-5, 13 and 18: parse faults. -/
theorem test_assemble_fails :
    parseFails "Push 256" 1 (.badLiteral "256".toList) = true ∧
    parseFails "; header\n\nPush" 3 (.arity 1 0) = true ∧
    parseFails "AddRegister Q 999" 1 (.unknownRegisterName ['Q']) = true := by decide

/-- V-HOST-1: an overlapping copy runs forward. -/
theorem test_copy_overlaps :
    (match (machine 8192 0#16 0#16 [(0, 1#8), (1, 2#8), (2, 3#8), (3, 4#8)]).copy 0 1 3 with
      | .ok t => t.mem == [(0, 1#8), (1, 1#8), (2, 1#8), (3, 1#8)]
      | .error _ => false) = true := by decide

/-- E6 through the interface of the host's two questions: the table's word for AddRegister A, B. -/
theorem test_fetch_word : decodeTableWord 16 0x1005 = some (.addRegister .a .b) ∧
    nextIs (step (State.reset.withFetchWord 16 0x1005)) (fun t => t.pcNat == 2) = true := by decide

/-! ### Witnesses: data that meet the hypotheses of each statement, at the ends of their ranges -/

theorem test_witness_InstructionWordIsTwoLittleEndianBytes :
    8190 + 1 < State.reset.cfg.memSize ∧ decode Config.default 0xFF01#16 = .ok (.push 0xFF#8) :=
  ⟨by decide, rfl⟩

theorem test_witness_OperandsAreTheFieldsOfTheShape :
    decode Config.default 0x0000#16 = .ok .nop ∧
    decode Config.default 0xFF01#16 = .ok (.push 0xFF#8) ∧
    decode Config.default 0x0702#16 = .ok (.popRegister .flags) ∧
    decode lax 0xF703#16 = .ok (.pushRegister .flags) ∧
    decode lax 0xFF04#16 = .ok .addStack ∧
    decode Config.default 0x7605#16 = .ok (.addRegister .bp .flags) ∧
    decode Config.default 0xFF06#16 = .ok (.signal 0xFF#8) := ⟨rfl, rfl, rfl, rfl, rfl, rfl, rfl⟩

theorem test_witness_RegisterFieldNamesTheRegisterOfItsOrdinal :
    (7#4).toNat < 8 ∧ 8 ≤ (8#4).toNat ∧
    tagOfCode OpcodeMap.default (lowByte 0x0802#16) = some .popRegister ∧
    8 ≤ (reg1Field 0x0802#16).toNat ∧
    tagOfCode OpcodeMap.default (lowByte 0x0F03#16) = some .pushRegister ∧
    8 ≤ (reg1Field 0x0F03#16).toNat ∧
    tagOfCode OpcodeMap.default (lowByte 0x9805#16) = some .addRegister ∧
    8 ≤ (reg1Field 0x9805#16).toNat ∧ 8 ≤ (reg2Field 0x9805#16).toNat := by decide

theorem test_witness_RegistryConversionsAgree :
    OpcodeMap.default.injective ∧ tagOfCode OpcodeMap.default 0x06#8 = some .signal ∧
    codeOf OpcodeMap.default .signal = codeOf OpcodeMap.default .signal := by decide

theorem test_witness_ImmediateIsTheZeroExtendedOperandByte :
    tagOfCode OpcodeMap.default (lowByte 0xFF01#16) = some .push ∧
    tagOfCode OpcodeMap.default (lowByte 0xFF06#16) = some .signal ∧
    (machine 65536 0xFFFD#16 0#16 []).spNat + 2 ≤ 0xFFFF ∧
    (machine 65536 0xFFFD#16 0#16 []).spNat + 1 < (machine 65536 0xFFFD#16 0#16 []).cfg.memSize ∧
    State.reset.entry 0xFF#8 = none := by decide

theorem test_witness_DecodeEncodeRoundTrip :
    Config.default.opcodes.injective ∧ lax.opcodes.injective := by decide

theorem test_witness_EncodeDecodeRoundTrip :
    decode lax 0x1702#16 = .ok (.popRegister .flags) ∧
    decode Config.default 0x7705#16 = .ok (.addRegister .flags .flags) ∧
    Config.default.strict = true := ⟨rfl, rfl, rfl⟩

theorem test_witness_DecodeReportsTheFirstFailingCheck :
    tagOfCode OpcodeMap.default (lowByte 0x0807#16) = none ∧
    (tagOfCode OpcodeMap.default (lowByte 0x0100#16) = some .nop ∧ Config.default.strict = true ∧
      (0x0100#16).toNat / 256 ≠ 0) ∧
    tagOfCode OpcodeMap.default (lowByte 0x8004#16) = some .addStack ∧
    (tagOfCode OpcodeMap.default (lowByte 0x1802#16) = some .popRegister ∧
      8 ≤ (0x1802#16).toNat / 256 % 16) ∧
    (tagOfCode OpcodeMap.default (lowByte 0x1703#16) = some .pushRegister ∧
      ¬ 8 ≤ (0x1703#16).toNat / 256 % 16 ∧ (0x1703#16).toNat / 4096 ≠ 0) ∧
    tagOfCode OpcodeMap.default (lowByte 0x8705#16) = some .addRegister ∧
    ¬ 8 ≤ (0x8705#16).toNat / 256 % 16 ∧ 8 ≤ (0x8705#16).toNat / 4096 := by decide

theorem test_witness_ProgramWordsSitAtBasePlusTwoI :
    8188 + 2 * [Instr.nop, .addStack].length ≤ State.reset.cfg.memSize ∧
    [Instr.nop, .addStack][1]? = some .addStack := by decide

theorem test_witness_ByteWriteThenRead :
    ((0 : Int) ≤ 0 ∧ (0 : Int) < State.reset.cfg.memSize) ∧
    ((0 : Int) ≤ 8191 ∧ (8191 : Int) < State.reset.cfg.memSize) ∧ (0 : Int) ≠ 8191 ∧
    (-1 : Int) < 0 ∧ (State.reset.cfg.memSize : Int) ≤ 8192 ∧
    State.reset.cfg.memSize ≤ (8192#16).toNat := by decide

theorem test_witness_MemoryIsZeroedAndIdempotent :
    ((0 : Int) ≤ 8191 ∧ (8191 : Int) < Config.default.memSize) ∧
    ∃ t, State.reset.write 8191 0xFF#8 = some t := ⟨by decide, _, rfl⟩

theorem test_witness_WordReadChecksBothBytes :
    ((0 : Int) ≤ 8190 ∧ (8190 : Int) + 1 < State.reset.cfg.memSize) ∧
    (-1 : Int) < 0 ∧ (State.reset.cfg.memSize : Int) ≤ 8192 ∧
    (0 : Int) ≤ 8191 ∧ (8191 : Int) + 1 = State.reset.cfg.memSize := by decide

theorem test_witness_WordWriteThenRead :
    ((0 : Int) ≤ 0 ∧ (0 : Int) + 1 < State.reset.cfg.memSize) ∧
    ((0 : Int) ≤ 8190 ∧ (8190 : Int) + 1 < State.reset.cfg.memSize) ∧
    (-1 : Int) < 0 ∧ (State.reset.cfg.memSize : Int) ≤ 8192 ∧
    (0 : Int) ≤ 8191 ∧ (8191 : Int) + 1 = State.reset.cfg.memSize ∧ (8190 : Int) ≠ 8191 := by decide

theorem test_witness_ByteOrderIsLittleEndian :
    ((0 : Int) ≤ 8190 ∧ (8190 : Int) + 1 < State.reset.cfg.memSize) ∧
    ∃ u, fetch (machine 8192 0#16 8190#16 []) = .ok (.nop, u) := ⟨by decide, _, rfl⟩

theorem test_witness_CopyRunsForward :
    8189 + 3 ≤ State.reset.cfg.memSize ∧ 0 + 3 ≤ State.reset.cfg.memSize ∧ 2 < 3 ∧
    8188 < 8189 ∧ 8189 + 3 ≤ 8192 := by decide

theorem test_witness_BulkOperationsFailSoftly :
    (0 < 4 ∧ State.reset.cfg.memSize < max 0 8190 + 4) ∧
    (0 < 1 ∧ State.reset.cfg.memSize < max 8192 0 + 1) ∧
    [0x01#8, 0x0A#8] ≠ [] ∧ State.reset.cfg.memSize < 8191 + [0x01#8, 0x0A#8].length := by decide

theorem test_witness_ConstructionState :
    (vector 0x1000#16 0x2A01#16).cfg = Config.default := by decide

theorem test_witness_StepRunsTheDecodedInstruction :
    (machine 65536 0#16 0xFFFD#16 []).read2 (machine 65536 0#16 0xFFFD#16 []).pcNat = .ok 0x0000#16 ∧
    (machine 65536 0#16 0xFFFD#16 []).pcNat + 2 ≤ 0xFFFF ∧
    decode (machine 65536 0#16 0xFFFD#16 []).cfg 0x0000#16 = .ok .nop := ⟨rfl, by decide, rfl⟩

theorem test_witness_FaultsBeforeTheAdvanceChangeNothing :
    (machine 8192 0#16 8192#16 []).cfg.memSize ≤ (machine 8192 0#16 8192#16 []).pcNat ∧
    (machine 8192 0#16 8191#16 []).pcNat + 1 = (machine 8192 0#16 8191#16 []).cfg.memSize ∧
    (machine 65536 0#16 0xFFFE#16 []).pcNat = 0xFFFE ∧
    65536 ≤ (machine 65536 0#16 0xFFFE#16 []).cfg.memSize := by decide

theorem test_witness_DecodeFaultKeepsTheAdvance :
    (vector 0#16 0x0007#16).read2 (vector 0#16 0x0007#16).pcNat = .ok 0x0007#16 ∧
    (vector 0#16 0x0007#16).pcNat + 2 ≤ 0xFFFF ∧
    decode (vector 0#16 0x0007#16).cfg 0x0007#16 = .error (.unknownOpcode 0x07#8) :=
  ⟨rfl, by decide, rfl⟩

theorem test_witness_SequentialFlow :
    ∃ t u, fetch (vector 2#16 0x0002#16) = .ok (.popRegister .a, u) ∧
      (Instr.popRegister .a).isSignal = false ∧ (Instr.popRegister .a).writesNamed .pc = false ∧
      step (vector 2#16 0x0002#16) = .next t := ⟨_, _, rfl, rfl, rfl, rfl⟩

theorem test_witness_PcWritesTransferControl :
    (∃ u, fetch (vector 0#16 0x2505#16) = .ok (.addRegister .pc .c, u)) ∧
    (∃ u, fetch (vector 0#16 0x5505#16) = .ok (.addRegister .pc .pc, u)) ∧
    (∃ u, fetch (vector 8192#16 0x0502#16) = .ok (.popRegister .pc, u)) ∧
    2 ≤ (vector 8192#16 0x0502#16).spNat ∧
    (vector 8192#16 0x0502#16).spNat ≤ (vector 8192#16 0x0502#16).cfg.memSize :=
  ⟨⟨_, rfl⟩, ⟨_, rfl⟩, ⟨_, rfl⟩, by decide, by decide⟩

theorem test_witness_NopHasNoEffect :
    (∃ u, fetch State.reset = .ok (.nop, u)) ∧
    tagOfCode OpcodeMap.default (lowByte 0x0100#16) = some .nop ∧ Config.default.strict = true ∧
    highByte 0x0100#16 ≠ 0#8 := ⟨⟨_, rfl⟩, by decide⟩

theorem test_witness_PushStoresTheImmediate :
    ((machine 65536 0xFFFD#16 0#16 []).spNat + 2 ≤ 0xFFFF ∧
      (machine 65536 0xFFFD#16 0#16 []).spNat + 1 < (machine 65536 0xFFFD#16 0#16 []).cfg.memSize) ∧
    (machine 8192 8190#16 0#16 []).spNat + 2 ≤ 0xFFFF ∧
    (machine 8192 8190#16 0#16 []).spNat + 1 < (machine 8192 8190#16 0#16 []).cfg.memSize := by decide

theorem test_witness_PushRegisterStoresTheRegister :
    (machine 2 0#16 0#16 []).spNat + 2 ≤ 0xFFFF ∧
    (machine 2 0#16 0#16 []).spNat + 1 < (machine 2 0#16 0#16 []).cfg.memSize := by decide

theorem test_witness_PushFaultsLeaveSpUnchanged :
    (Instr.push 1#8).isPush = true ∧ (Instr.pushRegister .sp).isPush = true ∧
    0xFFFF < (machine 8192 0xFFFE#16 0#16 []).spNat + 2 ∧
    ((machine 8192 8192#16 0#16 []).spNat + 2 ≤ 0xFFFF ∧
      (machine 8192 8192#16 0#16 []).cfg.memSize ≤ (machine 8192 8192#16 0#16 []).spNat) ∧
    (machine 8192 8191#16 0#16 []).spNat + 2 ≤ 0xFFFF ∧
    (machine 8192 8191#16 0#16 []).spNat + 1 = (machine 8192 8191#16 0#16 []).cfg.memSize := by decide

theorem test_witness_PopRegisterLoadsTheTopSlot :
    (2 ≤ (machine 2 2#16 0#16 []).spNat ∧
      (machine 2 2#16 0#16 []).spNat ≤ (machine 2 2#16 0#16 []).cfg.memSize) ∧
    2 ≤ (machine 8192 8192#16 0#16 []).spNat ∧
    (machine 8192 8192#16 0#16 []).spNat ≤ (machine 8192 8192#16 0#16 []).cfg.memSize ∧
    Reg.a ≠ .sp := by decide

theorem test_witness_PopRegisterFaultsChangeNothing :
    (machine 8192 1#16 0#16 []).spNat < 2 ∧
    (2 ≤ (machine 8192 8194#16 0#16 []).spNat ∧
      (machine 8192 8194#16 0#16 []).cfg.memSize + 2 ≤ (machine 8192 8194#16 0#16 []).spNat) ∧
    2 ≤ (machine 1 2#16 0#16 []).spNat ∧
    (machine 1 2#16 0#16 []).spNat = (machine 1 2#16 0#16 []).cfg.memSize + 1 := by decide

theorem test_witness_AddStackAddsTheTopTwoSlots :
    (4 ≤ (machine 4 4#16 0#16 []).spNat ∧
      (machine 4 4#16 0#16 []).spNat ≤ (machine 4 4#16 0#16 []).cfg.memSize) ∧
    4 ≤ (machine 8192 8192#16 0#16 []).spNat ∧
    (machine 8192 8192#16 0#16 []).spNat ≤ (machine 8192 8192#16 0#16 []).cfg.memSize := by decide

theorem test_witness_AddStackFaults :
    ((machine 8192 1#16 0#16 []).spNat < 2 ∧
      exec .addStack (machine 8192 1#16 0#16 []) =
        .fault (.failed (.memoryFault (-1)) (machine 8192 1#16 0#16 []))) ∧
    (2 ≤ (machine 8192 8194#16 0#16 []).spNat ∧
      (machine 8192 8194#16 0#16 []).cfg.memSize + 2 ≤ (machine 8192 8194#16 0#16 []).spNat) ∧
    (2 ≤ (machine 8192 8193#16 0#16 []).spNat ∧
      (machine 8192 8193#16 0#16 []).spNat = (machine 8192 8193#16 0#16 []).cfg.memSize + 1) ∧
    ((machine 2 2#16 0#16 []).spNat = 2 ∧
      (machine 2 2#16 0#16 []).spNat ≤ (machine 2 2#16 0#16 []).cfg.memSize) ∧
    (machine 3 3#16 0#16 []).spNat = 3 ∧
    (machine 3 3#16 0#16 []).spNat ≤ (machine 3 3#16 0#16 []).cfg.memSize :=
  ⟨⟨by decide, rfl⟩, by decide⟩

theorem test_witness_AddRegisterAdds :
    tagOfCode OpcodeMap.default (lowByte 0x7605#16) = some .addRegister ∧
    Reg.ofField (reg1Field 0x7605#16) = some .bp ∧ Reg.ofField (reg2Field 0x7605#16) = some .flags ∧
    ∃ u, fetch (vector 0#16 0x7605#16) = .ok (.addRegister .bp .flags, u) :=
  ⟨by decide, by decide, by decide, _, rfl⟩

theorem test_witness_SignalWithHaltHandlerSetsHalt :
    (withEntry 0x00#8 .halt).entry 0x00#8 = some .halt ∧
    (withEntry 0xFF#8 .halt).entry 0xFF#8 = some .halt := by decide

theorem test_witness_SignalFollowsTheTableEntry :
    State.reset.entry 0xFF#8 = none ∧ (withEntry 0xFF#8 (.host 7)).entry 0xFF#8 = some (.host 7) := by
  decide

theorem test_witness_HandlerWritesReachEveryState :
    State.reset.Inv ∧
    ((machine 8192 0x1000#16 4#16 [(8191, 0xFF#8)]).setEntry 0xFF#8 (some (.host 7))).Inv ∧
    ((machine 8192 0x1000#16 4#16 [(8191, 0xFF#8)]).setEntry 0xFF#8 (some (.host 7))).cfg =
      State.reset.cfg ∧
    ((machine 8192 0x1000#16 4#16 [(8191, 0xFF#8)]).setEntry 0xFF#8 (some (.host 7))).draws =
      State.reset.draws := by unfold State.Inv; decide

theorem test_witness_RegisterInstructionsFrame :
    exec .nop State.reset = .next State.reset ∧
    ∃ t, exec (.addRegister .pc .flags) State.reset = .next t := ⟨rfl, _, rfl⟩

theorem test_witness_PushFrame :
    (Instr.push 0xFF#8).isPush = true ∧ (Instr.pushRegister .sp).isPush = true ∧
    (∃ t, exec (.push 0xFF#8) (machine 8192 8190#16 0#16 []) = .next t) ∧
    ∃ t, exec (.pushRegister .sp) (machine 8192 8190#16 0#16 []) = .next t :=
  ⟨rfl, rfl, ⟨_, rfl⟩, _, rfl⟩

theorem test_witness_PopRegisterFrame :
    (∃ t, exec (.popRegister .sp) (machine 8192 2#16 0#16 []) = .next t) ∧
    ∃ t, exec (.popRegister .pc) (machine 8192 8192#16 0#16 []) = .next t := ⟨⟨_, rfl⟩, _, rfl⟩

theorem test_witness_AddStackFrame :
    (∃ t, exec .addStack (machine 8192 4#16 0#16 []) = .next t) ∧
    ∃ t, exec .addStack (machine 8192 8192#16 0#16 []) = .next t := ⟨⟨_, rfl⟩, _, rfl⟩

theorem test_witness_SignalFrame :
    (withEntry 0xF0#8 .halt).entry 0xF0#8 = some .halt ∧
    (∃ t, exec (.signal 0xF0#8) (withEntry 0xF0#8 .halt) = .next t) ∧
    State.reset.cfg.memSize ≤ (8192#16).toNat := ⟨by decide, ⟨_, rfl⟩, by decide⟩

theorem test_witness_PlainRegistersHaveNoImplicitRole :
    Reg.isPlain .bp = true ∧ State.reset.callsHost (.pushRegister .a) = false ∧
    (Instr.pushRegister .a).names .bp = false ∧ (Instr.pushRegister .a).writesNamed .a = false ∧
    (∃ t, exec (.pushRegister .a) State.reset = .next t) ∧
    ∃ why left, exec (.pushRegister .a) (machine 8192 0xFFFF#16 0#16 []) = .fault (.failed why left) :=
  ⟨by decide, by decide, by decide, by decide, ⟨_, rfl⟩, _, _, rfl⟩

theorem test_witness_FlagsIsAnOrdinaryRegister :
    State.reset.callsHost (.addRegister .a .b) = false ∧
    (Instr.addRegister .a .b).names .flags = false ∧
    (Instr.addRegister .a .flags).writesNamed .flags = false ∧
    (∃ t, exec (.addRegister .a .flags) State.reset = .next t) ∧
    ∃ why left, exec .addStack State.reset = .fault (.failed why left) :=
  ⟨by decide, by decide, by decide, ⟨_, rfl⟩, _, _, rfl⟩

theorem test_witness_StepDoesNotReadHalt :
    ∀ i u, fetch State.reset = .ok (i, u) → i.isSignal = false := fun i u h => by
  have e : fetch State.reset = .ok (.nop, State.reset.advanced 0) := rfl
  rw [e] at h; cases h; rfl

theorem test_witness_OnlySignalTouchesHaltAndTable :
    (∀ i u, fetch State.reset = .ok (i, u) → i.isSignal = false) ∧
    (∃ t, step State.reset = .next t) ∧
    (∀ i u, fetch (vector 0#16 0x0004#16) = .ok (i, u) → i.isSignal = false) ∧
    ∃ why left, step (vector 0#16 0x0004#16) = .fault (.failed why left) := by
  refine ⟨test_witness_StepDoesNotReadHalt, ⟨_, rfl⟩, fun i u h => ?_, _, _, rfl⟩
  have e : fetch (vector 0#16 0x0004#16) =
    .ok (.addStack, (vector 0#16 0x0004#16).advanced 0x40) := rfl
  rw [e] at h; cases h; rfl

theorem test_witness_StepKeepsTheInvariant :
    State.reset.Inv ∧ (∃ t, step State.reset = .next t) ∧ (vector 0#16 0x0004#16).Inv ∧
    ∃ f left, step (vector 0#16 0x0004#16) = .fault f ∧ f.resume = some left :=
  ⟨by unfold State.Inv; decide, ⟨_, rfl⟩, by unfold State.Inv; decide, _, _, rfl, rfl⟩

theorem test_witness_HostOperationsKeepTheInvariant :
    State.reset.Inv ∧ (∃ reply t, hostOp (.memWrite 8191#16 0xFF#8) State.reset = .success reply t) ∧
    ∃ why t, hostOp (.memWrite 8192#16 0xFF#8) State.reset = .failure why t :=
  ⟨by unfold State.Inv; decide, ⟨_, _, rfl⟩, _, _, rfl⟩

theorem test_witness_ConstructionMeetsTheInvariant :
    Config.default.wf ∧ Config.wf ⟨65536, OpcodeMap.default, false⟩ := by decide

theorem test_witness_PushedValuesPopInReverse :
    (∀ i ∈ [Instr.push 1#8, .pushRegister .sp], i.isPush = true) ∧
    [Reg.a, .flags].length = [Instr.push 1#8, .pushRegister .sp].length ∧
    (∀ r ∈ [Reg.a, .flags], r ≠ .sp ∧ r ≠ .pc) ∧
    (machine 8192 8188#16 0#16 []).spNat + 2 * [Instr.push 1#8, .pushRegister .sp].length ≤ 0xFFFF ∧
    (machine 8192 8188#16 0#16 []).spNat + 2 * [Instr.push 1#8, .pushRegister .sp].length ≤
      (machine 8192 8188#16 0#16 []).cfg.memSize := by decide

theorem test_witness_PushedWordIsFetchedNext :
    (Instr.push 5#8).isPush = true ∧ (machine 8192 4#16 4#16 []).spNat + 2 ≤ 0xFFFF ∧
    (machine 8192 4#16 4#16 []).spNat + 1 < (machine 8192 4#16 4#16 []).cfg.memSize ∧
    (machine 8192 4#16 4#16 []).pcNat = (machine 8192 4#16 4#16 []).spNat ∧
    decode Config.default (pushedValue State.reset (.push 5#8)) = .ok (.addRegister .a .a) ∧
    decode Config.default (pushedValue State.reset (.push 7#8)) = .error (.unknownOpcode 7#8) :=
  ⟨by decide, by decide, by decide, by decide, rfl, rfl⟩

/-- P6's word at address 0, AddRegister PC, C with C = 0xFFFE: a state that its step leaves as it is. -/
def selfJump : State := ((machine 8192 0#16 0#16 []).withFetchWord 16 0x2505).setReg .c 0xFFFE#16

/-- V-ADR-9: the jump back to the same word. -/
theorem test_self_jump : step selfJump = .next selfJump := by
  have h : nextIs (step selfJump) (fun t => t == selfJump) = true := by decide
  cases e : step selfJump with
  | next t => rw [e] at h; rw [show t = selfJump by simpa [nextIs] using h]
  | fault f => rw [e] at h; cases h
  | refused r => rw [e] at h; cases h

theorem test_witness_RunLoopEndsAtHaltOrFault :
    (∃ t, ((withEntry 0xF0#8 .halt).withFetchWord 16 0xF006).RunHalts t) ∧
    (∃ why left, (machine 8192 0#16 8191#16 []).RunFaults why left) ∧ selfJump.RunHangs :=
  ⟨⟨_, 0, _, State.quietly_zero.2 rfl, rfl, rfl⟩, ⟨_, _, 0, _, State.quietly_zero.2 rfl, rfl⟩,
    State.runHangs_of_step_eq test_self_jump (by decide)⟩

theorem test_witness_HostCannotWriteHalt :
    HostOp.memWrite 0#16 1#8 ≠ .step ∧ HostOp.memWrite 0#16 1#8 ≠ .construct ∧
    (∃ reply t, hostOp (.memWrite 0#16 1#8) State.reset = .success reply t) ∧
    ∃ why t, hostOp (.read2 8191#16) State.reset = .failure why t :=
  ⟨by decide, by decide, ⟨_, _, rfl⟩, _, _, rfl⟩

theorem test_witness_OperandCountMustEqualTheArity :
    (tokensOf "Push 1 2".toList = ["Push".toList, ['1'], ['2']] ∧
      ("Push".toList).head? ≠ some AsmParams.default.comment ∧
      tagOfMnemonic OpcodeMap.default "Push".toList = some .push ∧
      [['1'], ['2']].length ≠ (registryRow OpcodeMap.default .push).arity) ∧
    tokensOf "Push 1".toList = ["Push".toList, ['1']] ∧
    [['1']].length = (registryRow OpcodeMap.default .push).arity := by decide

theorem test_witness_UnknownMnemonicIsRefused :
    tokensOf "popregister A".toList = ["popregister".toList, ['A']] ∧
    ("popregister".toList).head? ≠ some AsmParams.default.comment ∧
    tagOfMnemonic OpcodeMap.default "popregister".toList = none := by decide

theorem test_witness_FirstBadLineStopsAssembly :
    linesOf "Nop\nFrob\nNop".toList = ["Nop".toList] ++ "Frob".toList :: ["Nop".toList] ∧
    (∀ l ∈ ["Nop".toList], ∃ o, parseLine AsmParams.default OpcodeMap.default l = .ok o) ∧
    parseLine AsmParams.default OpcodeMap.default "Frob".toList =
      .error (.unknownMnemonic "Frob".toList) :=
  ⟨by decide, fun l h => by rw [List.mem_singleton.1 h]; exact ⟨_, rfl⟩, rfl⟩

theorem test_witness_LiteralsAreTheirNumbers :
    ['0', '0', '7'] = List.replicate 2 '0' ++ Nat.toDigits 10 7 ∧
    (['f', 'F'].map Char.toLower = Nat.toDigits 16 255 ∧
      ['$', 'f', 'F'] = '$' :: (List.replicate 0 '0' ++ ['f', 'F'])) ∧
    '%' :: ['1', '0', '1'] = '%' :: (List.replicate 0 '0' ++ Nat.toDigits 2 5) ∧
    ¬ (∀ c ∈ ['0', 'x', '1', '0'], c.isDigit = true) ∧
    ¬ (∃ h, h ≠ [] ∧ ['0', 'x', '1', '0'] = '$' :: h) ∧
    ¬ (∃ b, b ≠ [] ∧ ['$'] = '%' :: b) ∧ ¬ (∃ h, h ≠ [] ∧ ['$'] = '$' :: h) :=
  ⟨by decide, by decide, by decide, fun h => absurd (h 'x' (by simp)) (by decide),
    fun ⟨_, _, h⟩ => by simp at h, fun ⟨_, _, h⟩ => by simp at h, fun ⟨h, n, e⟩ => by simp at e; exact n e⟩

theorem test_witness_AddRegisterTextFixesTheOrder :
    ((State.reset.setReg .a 0xFFFF#16).setReg .b 0x0002#16).getReg .a = 0xFFFF#16 ∧
    ((State.reset.setReg .a 0xFFFF#16).setReg .b 0x0002#16).getReg .b = 0x0002#16 := by decide

theorem test_witness_AcceptedLinesEmitTheirWordsInOrder :
    (linesOf "; note\nSignal 5".toList).map (parseLine AsmParams.default OpcodeMap.default) =
      [none, some (.signal 5#8)].map .ok := rfl

end Sys2Proof.Tests
end

/-! ### Registers without an implicit role (R24 of spec/10_state.md)

After the advance, SP is the one register that an instruction uses without naming it. So for any other register,
setting it before an operation is the same as setting it in what the operation leaves (`mapStates`). Setting
a register to the value it has already changes nothing; with that value the same equations are the frame. -/

namespace Sys2Proof.Machine

@[simp] theorem mapStates_next (f : State → State) (t : State) :
    mapStates f (.next t) = .next (f t) := rfl

@[simp] theorem mapStates_raise (f : State → State) (t : State) (why : Failure) :
    mapStates f (t.raise why) = (f t).raise why := rfl

section SetReg

variable {r q : Reg} (s : State) (v : Word)

/-- Setting a register to the value it has changes nothing. -/
theorem State.setReg_getReg (r : Reg) : s.setReg r (s.getReg r) = s := by
  have h : s.regs.set r (s.regs.get r) = s.regs := RegFile.ext_get fun p => by
    by_cases hp : p = r <;> simp [hp]
  exact congrArg (fun f => { s with regs := f }) h

/-- Writes to two different registers commute. -/
theorem State.setReg_comm (h : q ≠ r) (w : Word) :
    (s.setReg r v).setReg q w = (s.setReg q w).setReg r v := by
  have e : (s.regs.set r v).set q w = (s.regs.set q w).set r v := RegFile.ext_get fun p => by
    by_cases hq : p = q
    · simp [hq, h]
    · simp [hq]
  exact congrArg (fun f => { s with regs := f }) e

@[simp] theorem State.inRange_setReg (a : Int) : (s.setReg r v).inRange a = s.inRange a := rfl

@[simp] theorem State.entry_setReg (id : Byte) : (s.setReg r v).entry id = s.entry id := rfl

@[simp] theorem slotBelow_setReg (top : Nat) : slotBelow (s.setReg r v) top = slotBelow s top := rfl

@[simp] theorem State.setByte_setReg (k : Nat) (b : Byte) :
    (s.setReg r v).setByte k b = (s.setByte k b).setReg r v := rfl

@[simp] theorem State.nextDraw_setReg : (s.setReg r v).nextDraw = s.nextDraw.setReg r v := rfl

@[simp] theorem State.setHalt_setReg (b : Bool) :
    (s.setReg r v).setHalt b = (s.setHalt b).setReg r v := rfl

/-- What a failed 16-bit write leaves depends on no register. -/
@[simp] theorem State.halfWritten_setReg (a : Int) (w : Word) :
    (s.setReg r v).halfWritten a w = (s.halfWritten a w).setReg r v := by
  by_cases h : Config.storesLowByte s.draws <;> simp [State.halfWritten, h]

end SetReg

section NotSp

variable {r : Reg} (s : State) (v : Word) (hr : r ≠ .sp)
include hr

theorem State.spNat_setReg : (s.setReg r v).spNat = s.spNat := by
  simp [State.spNat, hr.symm]

theorem State.setSpNat_setReg (n : Nat) :
    (s.setReg r v).setSpNat n = (s.setSpNat n).setReg r v := s.setReg_comm v hr.symm _

theorem State.halfPopped_setReg (top : Nat) :
    (s.setReg r v).halfPopped top = (s.halfPopped top).setReg r v := by
  by_cases h : Config.keepsFirstPop s.draws <;>
    simp [State.halfPopped, h, State.setSpNat_setReg s v hr]

/-- A push of a given word reads and writes no register but SP. -/
theorem pushWord_setReg (w : Word) :
    pushWord w (s.setReg r v) = mapStates (fun t => t.setReg r v) (pushWord w s) := by
  unfold pushWord
  simp only [State.spNat_setReg s v hr]
  by_cases ho : s.spNat + 2 > 0xFFFF
  · simp [ho]
  · cases h0 : s.inRange s.spNat
    · simp [ho, State.write2, h0]
    · cases h1 : s.inRange ((s.spNat : Int) + 1) <;>
        simp [ho, State.write2, h0, h1, State.setSpNat_setReg _ v hr]

/-- A pop into another register neither reads nor writes this one. -/
theorem execPopRegister_setReg {q : Reg} (hq : q ≠ r) :
    execPopRegister q (s.setReg r v) = mapStates (fun t => t.setReg r v) (execPopRegister q s) := by
  have hsp := State.spNat_setReg s v hr
  cases h : slotBelow s s.spNat with
  | error bad => simp [execPopRegister, hsp, h]
  | ok w =>
    simp [execPopRegister, hsp, h, State.setSpNat_setReg s v hr, State.setReg_comm _ v hq]

/-- `AddStack` reads and writes no register but SP. -/
theorem execAddStack_setReg :
    execAddStack (s.setReg r v) = mapStates (fun t => t.setReg r v) (execAddStack s) := by
  have hsp := State.spNat_setReg s v hr
  rcases execAddStack_cases s with ⟨a, b, ha, hb, e⟩ | ⟨bad, ha, e⟩ | ⟨a, bad, ha, hb, e⟩
  · rw [e, execAddStack_ok (s := s.setReg r v) (a := a) (b := b) (by simpa [hsp] using ha)
      (by simpa [hsp] using hb)]
    simp [hsp, State.setSpNat_setReg _ v hr]
  · rw [e]; simp [execAddStack, hsp, ha]
  · rw [e]; simp [execAddStack, hsp, ha, hb, State.halfPopped_setReg s v hr]

end NotSp

section Exec

variable {s : State} {i : Instr} {r : Reg}

/-- `Signal` reads and writes no register where its entry is empty or the halt handler. -/
theorem execSignal_setReg {id : Byte} (hc : s.callsHost (.signal id) = false) (v : Word) :
    execSignal id (s.setReg r v) = mapStates (fun t => t.setReg r v) (execSignal id s) := by
  rcases execSignal_cases id s with ⟨he, e⟩ | ⟨he, e⟩ | ⟨n, he, -⟩ | ⟨n, o, he, -⟩
  · rw [e]; simp [execSignal, he]
  · rw [e]
    simp [execSignal, he, callHandler, State.finishSignal, State.afterActions, HandlerAction.apply]
  · simp [State.callsHost, he] at hc
  · simp [State.callsHost, he] at hc

/-- The value of a register that an instruction does not name changes nothing else, SP apart (R24). -/
theorem exec_setReg_of_not_names (hr : r ≠ .sp) (hc : s.callsHost i = false)
    (hn : i.names r = false) (v : Word) :
    exec i (s.setReg r v) = mapStates (fun t => t.setReg r v) (exec i s) := by
  cases i with
  | nop => rfl
  | push imm => exact pushWord_setReg s v hr (zext16 imm)
  | popRegister q =>
    have hq : q ≠ r := by simpa [Instr.names] using hn
    exact execPopRegister_setReg s v hr hq
  | pushRegister q =>
    have hq : q ≠ r := by simpa [Instr.names] using hn
    simpa [exec, execPushRegister, registerOperand, hq] using pushWord_setReg s v hr (s.getReg q)
  | addStack => exact execAddStack_setReg s v hr
  | addRegister q p =>
    obtain ⟨hq, hp⟩ : q ≠ r ∧ p ≠ r := by simpa [Instr.names] using hn
    simp [exec, execAddRegister, registerOperand, hq, hp, State.setReg_comm _ v hq]
  | signal id => exact execSignal_setReg hc v

/-- An instruction that does not write a register as an operand leaves every state with that register as it
was, SP apart. Beyond the instructions that do not name it, these are the ones that only read it. -/
theorem exec_eq_mapStates_setReg_getReg (hr : r ≠ .sp) (hc : s.callsHost i = false)
    (hw : i.writesNamed r = false) :
    exec i s = mapStates (fun t => t.setReg r (s.getReg r)) (exec i s) := by
  cases hn : i.names r with
  | false => simpa only [State.setReg_getReg] using exec_setReg_of_not_names hr hc hn (s.getReg r)
  | true =>
    cases i with
    | pushRegister q =>
      have h := pushWord_setReg s (s.getReg r) hr (s.getReg q)
      rwa [State.setReg_getReg] at h
    | addRegister q p =>
      have hq : q ≠ r := by simpa [Instr.writesNamed] using hw
      simp [exec, execAddRegister, ← State.setReg_comm s _ hq, State.setReg_getReg]
    | popRegister q => exact absurd hn (by simpa [Instr.names, Instr.writesNamed] using hw)
    | nop | push _ | addStack | signal _ => cases hn

/-- A next state keeps every register that the instruction does not write as an operand, SP apart. -/
theorem getReg_of_exec_next (hr : r ≠ .sp) (hc : s.callsHost i = false)
    (hw : i.writesNamed r = false) {t : State} (h : exec i s = .next t) :
    t.getReg r = s.getReg r := by
  have e := exec_eq_mapStates_setReg_getReg hr hc hw
  rw [h, mapStates_next, Host.Outcome.next.injEq] at e
  simpa using congrArg (fun u : State => u.getReg r) e

/-- The state a failure leaves keeps every register that the instruction does not write as an operand, SP
apart. -/
theorem getReg_of_exec_failed (hr : r ≠ .sp) (hc : s.callsHost i = false)
    (hw : i.writesNamed r = false) {why : Failure} {left : State}
    (h : exec i s = .fault (.failed why left)) : left.getReg r = s.getReg r := by
  have e := exec_eq_mapStates_setReg_getReg hr hc hw
  rw [h, show Host.Outcome.fault (.failed why left) = left.raise why from rfl, mapStates_raise] at e
  simp only [State.raise, Host.Outcome.fault.injEq, Fault.failed.injEq, true_and] at e
  simpa using congrArg (fun u : State => u.getReg r) e

end Exec

/-- No plain register is SP (R24, R28). -/
theorem ne_sp_of_isPlain {r : Reg} (h : r.isPlain = true) : r ≠ .sp := by
  rintro rfl; cases h

/-- Settles O43: SP is the one register used implicitly, and no plain register is SP. -/
theorem plainRegistersHaveNoImplicitRole : Obligations.PlainRegistersHaveNoImplicitRole :=
  fun _ _ _ hp hc =>
    have hr := ne_sp_of_isPlain hp
    ⟨exec_setReg_of_not_names hr hc,
      fun hw => ⟨fun _ => getReg_of_exec_next hr hc hw, fun _ _ => getReg_of_exec_failed hr hc hw⟩⟩

end Sys2Proof.Machine

namespace Sys2Proof

/-! ### The tag of a decoded word (R70, R75 and R80 of spec/30_encoding.md) -/

/-- The code of the tag that a code names is that code (R75). -/
theorem codeOf_of_tagOfCode {m : OpcodeMap} {op : Byte} {t : Tag} (h : tagOfCode m op = some t) :
    codeOf m t = op := by
  obtain ⟨row, hfind, rfl⟩ := Option.map_eq_some_iff.1 h
  obtain ⟨t, -, rfl⟩ := List.mem_map.1 (List.mem_of_find?_eq_some hfind)
  have hcode : (registryRow m t).code = op := by simpa using List.find?_some hfind
  cases t <;> exact hcode

theorem eq_of_decodeBare_ok {strict : Bool} {w : Word} {i j : Instr}
    (h : decodeBare strict w i = .ok j) : i = j := by
  unfold decodeBare at h
  split at h
  · cases h
  · exact Except.ok.inj h

theorem exists_of_decodeOneRegister_ok {strict : Bool} {w : Word} {mk : Reg → Instr} {i : Instr}
    (h : decodeOneRegister strict w mk = .ok i) : ∃ r, mk r = i := by
  unfold decodeOneRegister at h
  split at h
  · cases h
  · split at h
    · cases h
    · exact ⟨_, Except.ok.inj h⟩

theorem exists_of_decodeTwoRegisters_ok {w : Word} {mk : Reg → Reg → Instr} {i : Instr}
    (h : decodeTwoRegisters w mk = .ok i) : ∃ r1 r2, mk r1 r2 = i := by
  unfold decodeTwoRegisters at h
  split at h
  · cases h
  · split at h
    · cases h
    · exact ⟨_, _, Except.ok.inj h⟩

/-- Reading the operands of a tag gives an instruction of that tag (R80). -/
theorem tag_of_decodeOperands_ok {strict : Bool} {w : Word} {t : Tag} {i : Instr}
    (h : decodeOperands strict w t = .ok i) : i.tag = t := by
  cases t with
  | nop | addStack => rw [← eq_of_decodeBare_ok h]; rfl
  | push | signal => cases h; rfl
  | popRegister | pushRegister => obtain ⟨r, rfl⟩ := exists_of_decodeOneRegister_ok h; rfl
  | addRegister => obtain ⟨r1, r2, rfl⟩ := exists_of_decodeTwoRegisters_ok h; rfl

/-- The low byte of a word that decodes is the code of the instruction's tag (R70, R80). -/
theorem codeOf_tag_of_decode_ok {cfg : Config} {w : Word} {i : Instr} (h : decode cfg w = .ok i) :
    codeOf cfg.opcodes i.tag = lowByte w := by
  unfold decode at h
  split at h
  · cases h
  · next ht => rw [tag_of_decodeOperands_ok h]; exact codeOf_of_tagOfCode ht

end Sys2Proof

/-! ### Linear memory (R48, R53 and R55 of spec/20_memory.md)

A byte write is `State.setByte` at an address in range, and two lemmas say what it does: `State.read_setByte`
what every later read gives, `State.setByte_setByte_same` that writing the byte again changes nothing. The
second is an equation of states, and it holds of lists that are not in canonical form too. -/

namespace Sys2Proof.Machine

/-! #### Setting a key twice -/

section Sparse

variable {α : Type} (k : Nat) (v : α) (l : List (Nat × α))

theorem Sparse.erase_erase_same : Sparse.erase k (Sparse.erase k l) = Sparse.erase k l := by
  simp [Sparse.erase]

theorem Sparse.erase_insert_same : Sparse.erase k (Sparse.insert k v l) = Sparse.erase k l := by
  induction l with
  | nil => simp [Sparse.insert, Sparse.erase]
  | cons e rest ih =>
    by_cases hlt : k < e.1
    · simp [Sparse.insert, hlt, Sparse.erase]
    · rw [Sparse.insert, if_neg hlt]
      unfold Sparse.erase at ih ⊢
      rw [List.filter_cons, List.filter_cons, ih]

/-- Setting a key a second time replaces the first setting. -/
theorem Sparse.put_put_same (o o' : Option α) :
    Sparse.put k o (Sparse.put k o' l) = Sparse.put k o l := by
  have h : Sparse.erase k (Sparse.put k o' l) = Sparse.erase k l := by
    cases o' with
    | none => exact Sparse.erase_erase_same k l
    | some v => exact (Sparse.erase_insert_same k v _).trans (Sparse.erase_erase_same k l)
  cases o with
  | none => exact h
  | some v => exact congrArg (Sparse.insert k v) h

end Sparse

/-! #### Byte accesses -/

section ByteAccess

variable {s t : State} {a : Int} {v : Byte}

@[simp] theorem State.inRange_setByte (s : State) (k : Nat) (v : Byte) (a : Int) :
    (s.setByte k v).inRange a = s.inRange a := rfl

/-- Writing a byte to an address a second time replaces the first write. -/
theorem State.setByte_setByte_same (s : State) (k : Nat) (v w : Byte) :
    (s.setByte k w).setByte k v = s.setByte k v :=
  congrArg (fun m => { s with mem := m }) (Sparse.put_put_same k s.mem _ _)

/-- What every read gives after a byte is written in range (R48). -/
theorem State.read_setByte (h : s.inRange a = true) (b : Int) :
    (s.setByte a.toNat v).read b = if b = a then some v else s.read b := by
  by_cases hb : b = a
  · simp [State.read, hb, h]
  · cases hr : s.inRange b with
    | false => simp [State.read, hb, hr]
    | true =>
      have hne : b.toNat ≠ a.toNat := by
        have := ((s.inRange_iff a).1 h).1
        have := ((s.inRange_iff b).1 hr).1
        omega
      simp [State.read, hb, hr, hne]

/-- An address at or above MEM_SIZE, or below 0, is out of range (R47). -/
theorem State.inRange_eq_false_iff (s : State) (a : Int) :
    s.inRange a = false ↔ a < 0 ∨ (s.cfg.memSize : Int) ≤ a := by
  rw [← Bool.not_eq_true, State.inRange_iff]; omega

/-- A read gives a byte exactly in range (R46). -/
theorem State.read_isSome (s : State) (a : Int) :
    (s.read a).isSome = true ↔ s.inRange a = true := by
  simp [Option.isSome_iff_exists, State.read_eq_some]

/-- A write succeeds exactly in range (R48). -/
theorem State.write_isSome (s : State) (a : Int) (v : Byte) :
    (s.write a v).isSome = true ↔ s.inRange a = true := by
  simp [Option.isSome_iff_exists, State.write_eq_some]

/-- Writing the same byte twice leaves the same state as writing it once (R53). -/
theorem State.write_again (h : s.write a v = some t) : t.write a v = some t := by
  obtain ⟨hr, rfl⟩ := State.write_eq_some.1 h
  exact State.write_eq_some.2 ⟨hr, s.setByte_setByte_same _ v v⟩

/-- Every byte of a constructed machine is zero (R36, R53). -/
@[simp] theorem State.byteAt_construct (cfg : Config) (k : Nat) :
    (State.construct cfg).byteAt k = 0#8 := rfl

/-- A host write out of range fails at its address and leaves the state as it was (R48). -/
theorem hostOp_memWrite_eq_failure {a : Word} (h : s.inRange a.toNat = false) :
    hostOp (.memWrite a v) s = .failure (.memoryFault a.toNat) s := by
  simp [hostOp, State.write_eq_none.2 h]

/-- A host read fails at its address or gives a byte, and leaves the state as it was (R53). -/
theorem hostOp_memRead_cases (s : State) (a : Word) :
    hostOp (.memRead a) s = .failure (.memoryFault a.toNat) s ∨
      ∃ b, hostOp (.memRead a) s = .success (.byte b) s := by
  cases h : s.read a.toNat with
  | none => exact .inl (by simp [hostOp, h])
  | some b => exact .inr ⟨b, by simp [hostOp, h]⟩

end ByteAccess

/-! #### Byte order (R55) -/

section ByteOrder

variable {s t : State} {a : Int} {v : Word}

/-- A 16-bit write puts its low byte at the address and its high byte at the next one. -/
theorem State.read_of_write2_ok (h : s.write2 a v = .ok t) :
    t.read a = some (lowByte v) ∧ t.read (a + 1) = some (highByte v) := by
  obtain ⟨h0, h1, rfl⟩ := State.write2_eq_ok.1 h
  have hread := State.read_setByte (s := s.setByte a.toNat (lowByte v)) (v := highByte v) h1
  exact ⟨by simp [hread, State.read_setByte h0], by simp [hread]⟩

/-- A 16-bit read takes its low byte from the address and its high byte from the next one. -/
theorem State.read_of_read2_ok (h : s.read2 a = .ok v) :
    s.read a = some (lowByte v) ∧ s.read (a + 1) = some (highByte v) := by
  obtain ⟨h0, h1, rfl⟩ := State.read2_eq_ok.1 h
  exact ⟨State.read_eq_some.2 ⟨h0, by simp⟩, State.read_eq_some.2 ⟨h1, by simp⟩⟩

/-- A fetch decodes the little-endian word at PC. -/
theorem decode_wordAt_of_fetch_ok {u : State} {i : Instr} (h : fetch s = .ok (i, u)) :
    decode s.cfg (s.wordAt s.pcNat) = .ok i := by
  rcases fetch_cases s with ⟨_, -, e⟩ | ⟨_, -, -, e⟩ | ⟨_, _, -, -, -, e⟩ | ⟨w, j, hw, -, hd, e⟩ <;>
    rw [e] at h
  · cases h
  · cases h
  · cases h
  · cases h
    obtain ⟨-, -, rfl⟩ := State.read2_eq_ok.1 hw
    exact hd

end ByteOrder

/-- Settles O12: a write in range is `State.setByte`, whose reads `State.read_setByte` gives. -/
theorem byteWriteThenRead : Obligations.ByteWriteThenRead := by
  intro s v
  refine ⟨fun a h0 h1 => ?_, fun a h => ?_, fun a h => ?_⟩
  · have hr := (s.inRange_iff a).2 ⟨h0, h1⟩
    exact ⟨s.setByte a.toNat v, State.write_eq_some.2 ⟨hr, rfl⟩, by simp [State.read_setByte hr],
      fun b hb => by simp [State.read_setByte hr, hb], rfl, rfl, rfl, rfl, rfl⟩
  · exact State.write_eq_none.2 ((s.inRange_eq_false_iff a).2 h)
  · exact hostOp_memWrite_eq_failure ((s.inRange_eq_false_iff _).2 (.inr (by exact_mod_cast h)))

/-- Settles O13: a read and a write succeed exactly in range, and the second of two equal writes finds the
state that it would leave. -/
theorem memoryIsZeroedAndIdempotent : Obligations.MemoryIsZeroedAndIdempotent :=
  ⟨fun cfg a h0 h1 =>
      State.read_eq_some.2 ⟨((State.construct cfg).inRange_iff a).2 ⟨h0, h1⟩, State.byteAt_construct _ _⟩,
    fun s a v => ⟨(s.read_isSome a).trans (s.inRange_iff a),
      (s.write_isSome a v).trans (s.inRange_iff a)⟩,
    hostOp_memRead_cases, fun _ _ _ _ => State.write_again⟩

/-- Settles O16: 16-bit writes, 16-bit reads and the fetch take the low byte at the lower address. -/
theorem byteOrderIsLittleEndian : Obligations.ByteOrderIsLittleEndian := by
  refine ⟨fun s a v h0 h1 => ?_, fun s u i h => ?_⟩
  · have hr0 := (s.inRange_iff a).2 ⟨h0, by omega⟩
    have hr1 := (s.inRange_iff (a + 1)).2 ⟨by omega, h1⟩
    have hw := (State.write2_eq_ok (v := v)).2 ⟨hr0, hr1, rfl⟩
    have hr := State.read2_eq_ok.2 ⟨hr0, hr1, rfl⟩
    exact ⟨⟨_, hw, State.read_of_write2_ok hw⟩, _, hr, State.read_of_read2_ok hr⟩
  · have hd := decode_wordAt_of_fetch_ok h
    exact ⟨by simpa [State.wordAt] using codeOf_tag_of_decode_ok hd, hd⟩

end Sys2Proof.Machine

/-! ### Fields, registers and operands of a word (R70 to R74 and R80 of spec/30_encoding.md) -/

namespace Sys2Proof

open Machine (toNat_wordOfBytes)

/-! #### The fields as numbers (R70, R71) -/

theorem toNat_highByte (w : Word) : (highByte w).toNat = w.toNat / 256 := by
  have := w.isLt
  rw [highByte, BitVec.extractLsb'_toNat, Nat.shiftRight_eq_div_pow]
  omega

theorem toNat_reg1Field (w : Word) : (reg1Field w).toNat = w.toNat / 256 % 16 := by
  rw [reg1Field, BitVec.extractLsb'_toNat, Nat.shiftRight_eq_div_pow]

theorem toNat_reg2Field (w : Word) : (reg2Field w).toNat = w.toNat / 4096 := by
  have := w.isLt
  rw [reg2Field, BitVec.extractLsb'_toNat, Nat.shiftRight_eq_div_pow]
  omega

/-- An operand byte made of two fields, the first register's in its low half. -/
theorem toNat_append_fields (f2 f1 : BitVec 4) :
    (f2 ++ f1 : Byte).toNat = f1.toNat + 16 * f2.toNat := by
  have := f1.isLt
  rw [BitVec.toNat_append, ← Nat.shiftLeft_add_eq_or_of_lt (by omega), Nat.shiftLeft_eq]
  omega

@[simp] theorem reg1Field_wordOfBytes (lo : Byte) (f2 f1 : BitVec 4) :
    reg1Field (wordOfBytes lo (f2 ++ f1)) = f1 := by
  apply BitVec.eq_of_toNat_eq
  have := lo.isLt
  have := f1.isLt
  rw [toNat_reg1Field, toNat_wordOfBytes, toNat_append_fields]
  omega

@[simp] theorem reg2Field_wordOfBytes (lo : Byte) (f2 f1 : BitVec 4) :
    reg2Field (wordOfBytes lo (f2 ++ f1)) = f2 := by
  apply BitVec.eq_of_toNat_eq
  have := lo.isLt
  have := f1.isLt
  rw [toNat_reg2Field, toNat_wordOfBytes, toNat_append_fields]
  omega

/-! #### Register fields (R74) -/

theorem Reg.ord_lt (r : Reg) : r.ord < 8 := by cases r <;> decide

theorem Reg.getElem?_all_ord (r : Reg) : Reg.all[r.ord]? = some r := by cases r <;> rfl

theorem Reg.ofField_eq_some {f : BitVec 4} {r : Reg} :
    Reg.ofField f = some r ↔ r.ord = f.toNat := by
  have hnodup : Reg.all.Nodup := by decide
  rw [Reg.ofField, ← r.getElem?_all_ord, eq_comm]
  exact List.getElem?_inj r.ord_lt hnodup

theorem Reg.ofField_eq_none {f : BitVec 4} : Reg.ofField f = none ↔ 8 ≤ f.toNat :=
  List.getElem?_eq_none_iff

theorem Reg.exists_ofField_of_lt {f : BitVec 4} (h : f.toNat < 8) : ∃ r, Reg.ofField f = some r :=
  Option.ne_none_iff_exists'.1 (mt Reg.ofField_eq_none.1 (Nat.not_le.2 h))

@[simp] theorem Reg.ofField_toField (r : Reg) : Reg.ofField r.toField = some r := by
  have := r.ord_lt
  rw [Reg.ofField_eq_some, Reg.toField, BitVec.toNat_ofNat]
  omega

theorem decodeReg_eq_ok {f : BitVec 4} {r : Reg} : decodeReg f = .ok r ↔ r.ord = f.toNat := by
  rw [← Reg.ofField_eq_some, decodeReg]
  cases Reg.ofField f <;> simp

theorem decodeReg_of_le {f : BitVec 4} (h : 8 ≤ f.toNat) :
    decodeReg f = .error (.unknownRegister f) := by
  rw [decodeReg, Reg.ofField_eq_none.2 h]

theorem exists_decodeReg_of_lt {f : BitVec 4} (h : f.toNat < 8) : ∃ r, decodeReg f = .ok r := by
  obtain ⟨r, hr⟩ := Reg.exists_ofField_of_lt h
  exact ⟨r, decodeReg_eq_ok.2 (Reg.ofField_eq_some.1 hr)⟩

/-! #### The register arms of the decoder (R80, R82) -/

section RegisterArms

variable {strict : Bool} {w : Word} {i : Instr}

/-- Everything the one-register arm accepts. -/
theorem decodeOneRegister_eq_ok {mk : Reg → Instr} :
    decodeOneRegister strict w mk = .ok i ↔
      ∃ r, r.ord = (reg1Field w).toNat ∧ (strict = true → reg2Field w = 0#4) ∧ mk r = i := by
  simp only [← decodeReg_eq_ok, decodeOneRegister]
  cases decodeReg (reg1Field w) with
  | error e => simp
  | ok r =>
    by_cases hs : strict = true ∧ reg2Field w ≠ 0#4
    · simp [hs]
    · have hunused : strict = true → reg2Field w = 0#4 := fun h => not_not.1 fun hw => hs ⟨h, hw⟩
      simp only [if_neg hs]
      simpa using fun _ => hunused

/-- Everything the two-register arm accepts. -/
theorem decodeTwoRegisters_eq_ok {mk : Reg → Reg → Instr} :
    decodeTwoRegisters w mk = .ok i ↔
      ∃ r1 r2, r1.ord = (reg1Field w).toNat ∧ r2.ord = (reg2Field w).toNat ∧ mk r1 r2 = i := by
  simp only [← decodeReg_eq_ok, decodeTwoRegisters]
  cases decodeReg (reg1Field w) <;> cases decodeReg (reg2Field w) <;> simp

theorem decodeOneRegister_of_le (mk : Reg → Instr) (h : 8 ≤ (reg1Field w).toNat) :
    decodeOneRegister strict w mk = .error (.unknownRegister (reg1Field w)) := by
  rw [decodeOneRegister, decodeReg_of_le h]

theorem decodeTwoRegisters_of_reg1_le (mk : Reg → Reg → Instr) (h : 8 ≤ (reg1Field w).toNat) :
    decodeTwoRegisters w mk = .error (.unknownRegister (reg1Field w)) := by
  rw [decodeTwoRegisters, decodeReg_of_le h]

theorem decodeTwoRegisters_of_reg2_le (mk : Reg → Reg → Instr) (h1 : (reg1Field w).toNat < 8)
    (h2 : 8 ≤ (reg2Field w).toNat) :
    decodeTwoRegisters w mk = .error (.unknownRegister (reg2Field w)) := by
  obtain ⟨r1, hr1⟩ := exists_decodeReg_of_lt h1
  rw [decodeTwoRegisters, hr1, decodeReg_of_le h2]

end RegisterArms

/-! #### The decoder after the opcode is known (R80) -/

theorem decode_of_tagOfCode {cfg : Config} {w : Word} {t : Tag}
    (h : tagOfCode cfg.opcodes (lowByte w) = some t) :
    decode cfg w = decodeOperands cfg.strict w t := by
  rw [decode, h]

/-- A word that decodes has the operands of the instruction's own tag. -/
theorem decodeOperands_tag_of_decode_ok {cfg : Config} {w : Word} {i : Instr}
    (h : decode cfg w = .ok i) : decodeOperands cfg.strict w i.tag = .ok i := by
  unfold decode at h
  split at h
  · cases h
  · rwa [tag_of_decodeOperands_ok h]

/-! #### The registry (R75) -/

theorem Tag.mem_all (t : Tag) : t ∈ Tag.all := by cases t <;> decide

theorem codeOf_injective {m : OpcodeMap} (hm : m.injective) {t u : Tag}
    (h : codeOf m t = codeOf m u) : t = u :=
  List.inj_on_of_nodup_map (f := codeOf m) (l := Tag.all) hm t.mem_all u.mem_all h

theorem mnemonic_injective (m : OpcodeMap) {t u : Tag}
    (h : (registryRow m t).mnemonic = (registryRow m u).mnemonic) : t = u := by
  have hnodup : (Tag.all.map (fun t => (registryRow m t).mnemonic)).Nodup := by
    simp [Tag.all, registryRow]
  exact List.inj_on_of_nodup_map hnodup t.mem_all u.mem_all h

@[simp] theorem registryRow_tag (m : OpcodeMap) (t : Tag) : (registryRow m t).tag = t := by
  cases t <;> rfl

/-- The search of the registry by a key that tells the tags apart finds the row of the key's tag. -/
theorem tag_of_find?_registry {α : Type} [BEq α] [LawfulBEq α] {m : OpcodeMap}
    (key : RegistryRow → α)
    (hkey : ∀ t u, key (registryRow m t) = key (registryRow m u) → t = u) (t : Tag) :
    ((registry m).find? (fun row => key row == key (registryRow m t))).map (·.tag) = some t := by
  have hsome : ((registry m).find? (fun row => key row == key (registryRow m t))).isSome :=
    List.find?_isSome.2 ⟨_, List.mem_map_of_mem t.mem_all, beq_self_eq_true _⟩
  obtain ⟨row, hfind⟩ := Option.isSome_iff_exists.1 hsome
  obtain ⟨u, -, rfl⟩ := List.mem_map.1 (List.mem_of_find?_eq_some hfind)
  have hu : key (registryRow m u) = key (registryRow m t) := by
    simpa using List.find?_some hfind
  simp [hfind, hkey u t hu]

/-- The code of a tag names it again. -/
theorem tagOfCode_codeOf {m : OpcodeMap} (hm : m.injective) (t : Tag) :
    tagOfCode m (codeOf m t) = some t :=
  tag_of_find?_registry (·.code) (fun _ _ => codeOf_injective hm) t

theorem tagOfMnemonic_mnemonic (m : OpcodeMap) (t : Tag) :
    tagOfMnemonic m (registryRow m t).mnemonic.toList = some t :=
  tag_of_find?_registry (·.mnemonic.toList)
    (fun _ _ h => mnemonic_injective m (String.toList_injective h)) t

end Sys2Proof

namespace Sys2Proof.Machine

/-! ### Statements about the encoding -/

/-- Settles O1: a 16-bit read composes its word from the two bytes as the encoder does. -/
theorem instructionWordIsTwoLittleEndianBytes : Obligations.InstructionWordIsTwoLittleEndianBytes := by
  refine ⟨fun s a h => ⟨s.wordAt a, ?_, toNat_wordOfBytes _ _, lowByte_wordOfBytes _ _,
      highByte_wordOfBytes _ _⟩, fun _ _ _ => codeOf_tag_of_decode_ok,
    fun cfg i => ⟨_, _, rfl, lowByte_wordOfBytes _ _, highByte_wordOfBytes _ _, ?_⟩⟩
  · exact State.read2_eq_ok.2
      ⟨(s.inRange_iff _).2 (by omega), (s.inRange_iff _).2 (by omega), rfl⟩
  · rw [← toNat_wordOfBytes, wordOfBytes_low_high]

/-- Settles O2: each operand of a decoded word is read by the arm of its tag. -/
theorem operandsAreTheFieldsOfTheShape : Obligations.OperandsAreTheFieldsOfTheShape := by
  refine ⟨fun m => rfl, fun cfg w i h => ?_⟩
  have hop := decodeOperands_tag_of_decode_ok h
  cases i with
  | nop | addStack => trivial
  | push v | signal v => cases hop; exact toNat_highByte w
  | popRegister r | pushRegister r =>
    obtain ⟨_, hr, -, ⟨⟩⟩ := decodeOneRegister_eq_ok.1 hop
    exact hr.trans (toNat_reg1Field w)
  | addRegister r1 r2 =>
    obtain ⟨_, _, h1, h2, ⟨⟩⟩ := decodeTwoRegisters_eq_ok.1 hop
    exact ⟨h1.trans (toNat_reg1Field w), h2.trans (toNat_reg2Field w)⟩

/-- Settles O3: a register field indexes the list of the eight registers by ordinal. -/
theorem registerFieldNamesTheRegisterOfItsOrdinal :
    Obligations.RegisterFieldNamesTheRegisterOfItsOrdinal := by
  refine ⟨fun f r => Reg.ofField_eq_some,
    fun f h => Reg.exists_ofField_of_lt h, fun f h => Reg.ofField_eq_none.2 h, fun cfg w t ht => ?_⟩
  rw [decode_of_tagOfCode ht]
  refine ⟨?_, ?_⟩
  · rintro (rfl | rfl | rfl) h1
    · exact ⟨_, decodeOneRegister_of_le _ h1⟩
    · exact ⟨_, decodeOneRegister_of_le _ h1⟩
    · exact ⟨_, decodeTwoRegisters_of_reg1_le _ h1⟩
  · rintro rfl h2
    by_cases h1 : 8 ≤ (reg1Field w).toNat
    · exact ⟨_, decodeTwoRegisters_of_reg1_le _ h1⟩
    · exact ⟨_, decodeTwoRegisters_of_reg2_le _ (Nat.not_le.1 h1) h2⟩

/-- Settles O4: every conversion reads the one table, whose codes and mnemonics are distinct. -/
theorem registryConversionsAgree : Obligations.RegistryConversionsAgree := by
  refine fun m hm => ⟨tagOfCode_codeOf hm, fun _ _ => codeOf_of_tagOfCode,
    fun _ _ => codeOf_injective hm, tagOfMnemonic_mnemonic m, fun _ _ => mnemonic_injective m,
    registryRow_tag m, fun t => ?_⟩
  cases t with
  | nop | addStack => exact ⟨rfl, _, rfl, fun _ _ => rfl⟩
  | push | signal => exact ⟨rfl, _, fun _ => rfl, fun _ _ => rfl⟩
  | popRegister | pushRegister => exact .inl ⟨rfl, _, fun _ => rfl, fun _ _ => rfl⟩
  | addRegister => exact .inr ⟨rfl, _, fun _ _ => rfl, fun _ _ => rfl⟩

/-! ### A push that completes (R125) -/

@[simp] theorem State.byteAt_setSpNat (s : State) (n k : Nat) :
    (s.setSpNat n).byteAt k = s.byteAt k := rfl

theorem toNat_zext16 (v : Byte) : (zext16 v).toNat = v.toNat :=
  BitVec.toNat_setWidth_of_le (by decide)

/-- With SP + 2 in 16 bits and both bytes of the slot backed by memory, a push completes and its word stands
in the slot. -/
theorem pushWord_completes {s : State} (v : Word) (hsp : s.spNat + 2 ≤ 0xFFFF)
    (hmem : s.spNat + 1 < s.cfg.memSize) :
    ∃ t, pushWord v s = .next t ∧ t.wordAt s.spNat = v := by
  have h0 := (s.inRange_iff s.spNat).2 (by omega)
  have h1 := (s.inRange_iff (s.spNat + 1)).2 (by omega)
  rcases pushWord_cases v s with ⟨-, -, -, e⟩ | ⟨ho, -⟩ | ⟨-, hr, -⟩ | ⟨-, -, hr, -⟩
  · exact ⟨_, e, by simp [State.wordAt]⟩
  · omega
  · simp [h0] at hr
  · simp [h1] at hr

/-- Settles O5: the two immediate arms of the decoder give the high byte, and each instruction uses its value. -/
theorem immediateIsTheZeroExtendedOperandByte :
    Obligations.ImmediateIsTheZeroExtendedOperandByte := by
  refine ⟨fun m t => by cases t <;> simp [registryRow], fun _ _ h => decode_of_tagOfCode h,
    fun _ _ h => decode_of_tagOfCode h, fun s v hsp hmem => ?_, fun s id h => ?_⟩
  · obtain ⟨t, he, hw⟩ := pushWord_completes (zext16 v) hsp hmem
    exact ⟨t, he, by rw [hw, toNat_zext16]⟩
  · simp [exec, execSignal, h, State.raise]

end Sys2Proof.Machine

/-! ### Images in memory (R52 of spec/20_memory.md; R88 of spec/30_encoding.md) -/

namespace Sys2Proof.Machine

section Image

variable {s t : State} {dst : Nat} {bytes : List Byte}

/-- Bytes that fit in memory can all be written. -/
theorem State.exists_writeBytes (h : dst + bytes.length ≤ s.cfg.memSize) :
    ∃ t, s.writeBytes dst bytes = .ok t := by
  induction bytes generalizing s dst with
  | nil => exact ⟨s, rfl⟩
  | cons b rest ih =>
    rw [List.length_cons] at h
    have hw := (State.write_eq_some (v := b)).2 ⟨(s.inRange_iff dst).2 (by omega), rfl⟩
    rw [State.writeBytes, hw]
    exact ih (dst := dst + 1) (by rw [State.setByte_cfg]; omega)

/-- Writing bytes leaves every address below the first as it was. -/
theorem State.byteAt_writeBytes_of_lt {q : Nat} (h : s.writeBytes dst bytes = .ok t) (hq : q < dst) :
    t.byteAt q = s.byteAt q := by
  induction bytes generalizing s dst with
  | nil => cases h; rfl
  | cons b rest ih =>
    rw [State.writeBytes] at h
    split at h
    · cases h
    · next u hw =>
      obtain ⟨-, rfl⟩ := State.write_eq_some.1 hw
      rw [ih (dst := dst + 1) h (by omega), State.byteAt_setByte, if_neg (by omega)]

/-- Byte k of those written stands k bytes above the first address. -/
theorem State.byteAt_writeBytes {k : Nat} {b : Byte} (h : s.writeBytes dst bytes = .ok t)
    (hk : bytes[k]? = some b) : t.byteAt (dst + k) = b := by
  induction bytes generalizing s dst k with
  | nil => cases hk
  | cons c rest ih =>
    rw [State.writeBytes] at h
    split at h
    · cases h
    · next u hw =>
      cases k with
      | zero =>
        obtain ⟨-, rfl⟩ := State.write_eq_some.1 hw
        cases hk
        simp [State.byteAt_writeBytes_of_lt (dst := dst + 1) h (Nat.lt_succ_self dst)]
      | succ k =>
        rw [← ih (dst := dst + 1) h hk, Nat.add_right_comm, Nat.add_assoc]

end Image

@[simp] theorem imageOf_cons (cfg : Config) (i : Instr) (is : List Instr) :
    imageOf cfg (i :: is) = lowByte (encode cfg i) :: highByte (encode cfg i) :: imageOf cfg is := rfl

@[simp] theorem length_imageOf (cfg : Config) (is : List Instr) :
    (imageOf cfg is).length = 2 * is.length := by
  induction is with
  | nil => rfl
  | cons i is ih => simp [ih]; omega

/-- Instruction k of an image is its bytes 2k and 2k + 1, the low byte first. -/
theorem getElem?_imageOf {cfg : Config} {is : List Instr} {k : Nat} {i : Instr} (h : is[k]? = some i) :
    (imageOf cfg is)[2 * k]? = some (lowByte (encode cfg i)) ∧
      (imageOf cfg is)[2 * k + 1]? = some (highByte (encode cfg i)) := by
  induction is generalizing k with
  | nil => cases h
  | cons j is ih =>
    cases k with
    | zero => cases h; exact ⟨rfl, rfl⟩
    | succ k => exact ih h

/-- Settles O11: byte k of a loaded image stands at base + k, and instruction i is its bytes 2i and 2i + 1. -/
theorem programWordsSitAtBasePlusTwoI : Obligations.ProgramWordsSitAtBasePlusTwoI := by
  intro s is base hfit
  obtain ⟨t, hw⟩ := State.exists_writeBytes (s := s) (dst := base)
    (bytes := imageOf s.cfg is) (by rwa [length_imageOf])
  refine ⟨length_imageOf _ _, t, by rw [State.loadImage, hw], fun k i hk => ?_⟩
  have hlt : k < is.length := (List.getElem?_eq_some_iff.1 hk).1
  have hcfg : t.cfg = s.cfg := (State.MemKept.writeBytes hw).1
  obtain ⟨hlo, hhi⟩ := getElem?_imageOf (cfg := s.cfg) hk
  have hb0 := State.byteAt_writeBytes hw hlo
  have hb1 := State.byteAt_writeBytes hw hhi
  rw [State.read2_eq_ok, State.inRange_iff, State.inRange_iff, hcfg]
  refine ⟨by omega, by omega, ?_⟩
  have ha : (((base + 2 * k : Nat) : Int) + 1).toNat = base + (2 * k + 1) := by omega
  rw [ha, Int.toNat_natCast, hb0, hb1, wordOfBytes_low_high]

end Sys2Proof.Machine

/-! ### Lines, tokens and operands of assembly text (R90 to R100 of spec/30_encoding.md) -/

namespace Sys2Proof.Machine

/-! #### Operand counts (R93) -/

/-- A wrong operand count is an arity fault with both counts. -/
theorem parseOperands_of_length_ne {p : AsmParams} {m : OpcodeMap} {t : Tag} {ops : List (List Char)}
    (h : ops.length ≠ (registryRow m t).arity) :
    parseOperands p m t ops = .error (.arity (registryRow m t).arity ops.length) := by
  cases t with
  | nop | addStack =>
    match ops with
    | [] => exact absurd rfl h
    | _ :: _ => rfl
  | push | popRegister | pushRegister | signal =>
    match ops with
    | [_] => exact absurd rfl h
    | [] | _ :: _ :: _ => rfl
  | addRegister =>
    match ops with
    | [_, _] => exact absurd rfl h
    | [] | [_] | _ :: _ :: _ :: _ => rfl

/-- The one fault of a literal operand (R94). -/
theorem withLiteral_eq_error {p : AsmParams} {mk : Byte → Instr} {x : List Char} {e : ParseFault}
    (h : withLiteral p mk x = .error e) : e = .badLiteral x := by
  unfold withLiteral at h
  split at h
  · next hl =>
    cases h
    unfold parseLiteral at hl
    split at hl
    · cases hl; rfl
    · split at hl
      · cases hl
      · cases hl; rfl
  · cases h

theorem parseRegister_eq_error {x : List Char} {e : ParseFault}
    (h : parseRegister x = .error e) : e = .unknownRegisterName x := by
  unfold parseRegister at h
  split at h
  · cases h; rfl
  · cases h

/-- The one fault of a register operand (R95). -/
theorem withRegister_eq_error {mk : Reg → Instr} {x : List Char} {e : ParseFault}
    (h : withRegister mk x = .error e) : e = .unknownRegisterName x := by
  unfold withRegister at h
  split at h
  · next hr => cases h; exact parseRegister_eq_error hr
  · cases h

/-- The one fault of two register operands, at either of them (R95, R98). -/
theorem withRegisters_eq_error {mk : Reg → Reg → Instr} {x y : List Char} {e : ParseFault}
    (h : withRegisters mk x y = .error e) :
    e = .unknownRegisterName x ∨ e = .unknownRegisterName y := by
  unfold withRegisters at h
  split at h
  · next hr => cases h; exact .inl (parseRegister_eq_error hr)
  · exact .inr (withRegister_eq_error h)

/-- With the right count no operand gives an arity fault. -/
theorem parseOperands_ne_arity {p : AsmParams} {m : OpcodeMap} {t : Tag} {ops : List (List Char)}
    (h : ops.length = (registryRow m t).arity) (e a : Nat) :
    parseOperands p m t ops ≠ .error (.arity e a) := by
  intro hp
  cases t with
  | nop | addStack =>
    obtain rfl := List.eq_nil_of_length_eq_zero h
    cases hp
  | push | signal =>
    obtain ⟨x, rfl⟩ := List.length_eq_one_iff.1 h
    cases withLiteral_eq_error hp
  | popRegister | pushRegister =>
    obtain ⟨x, rfl⟩ := List.length_eq_one_iff.1 h
    cases withRegister_eq_error hp
  | addRegister =>
    obtain ⟨x, y, rfl⟩ := List.length_eq_two.1 h
    rcases withRegisters_eq_error hp with he | he <;> cases he

/-! #### Lines (R92, R98) -/

/-- A line whose first token is a mnemonic is what its operands give. -/
theorem parseLine_of_tokens {p : AsmParams} {m : OpcodeMap} {line tok : List Char}
    {ops : List (List Char)} {t : Tag} (htok : tokensOf line = tok :: ops)
    (hc : tok.head? ≠ some p.comment) (ht : tagOfMnemonic m tok = some t) :
    parseLine p m line = (parseOperands p m t ops).map some := by
  simp only [parseLine, htok, if_neg hc, ht]
  cases parseOperands p m t ops <;> rfl

theorem parseLines_of_error {p : AsmParams} {m : OpcodeMap} {line : List Char} {e : ParseFault}
    (h : parseLine p m line = .error e) (number : Nat) (rest : List (List Char)) :
    parseLines p m number (line :: rest) = .error (.parseFault number e) := by
  rw [parseLines, h]

/-- Lines that are all accepted give their instructions in order, and skipped lines give none. -/
theorem parseLines_of_ok {p : AsmParams} {m : OpcodeMap} {lines : List (List Char)}
    {found : List (Option Instr)} (h : lines.map (parseLine p m) = found.map .ok) (number : Nat) :
    parseLines p m number lines = .ok (found.flatMap Option.toList) := by
  induction lines generalizing found number with
  | nil =>
    cases found with
    | nil => rfl
    | cons o more => cases h
  | cons line rest ih =>
    cases found with
    | nil => cases h
    | cons o more =>
      obtain ⟨hline, hrest⟩ := List.cons.inj h
      rw [parseLines, hline, ih hrest]
      rfl

/-- A text whose lines are all accepted assembles to the image of their instructions. -/
theorem assemble_of_ok {p : AsmParams} {cfg : Config} {text : List Char}
    {found : List (Option Instr)}
    (h : (linesOf text).map (parseLine p cfg.opcodes) = found.map .ok) :
    assemble p cfg text = .ok (imageOf cfg (found.flatMap Option.toList)) := by
  rw [assemble, parseText, parseLines_of_ok h]

/-! #### One line of tokens with one space between (R90, R92, R97) -/

/-- A token of printable ASCII, no character of which separates tokens or ends a line. -/
def IsPrintable (tok : List Char) : Prop :=
  tok ≠ [] ∧ ∀ c ∈ tok, 0x21 ≤ c.toNat ∧ c.toNat ≤ 0x7E

/-- A first token and operands, one space before each operand: the form of `instrText`. -/
def lineText (tok : List Char) (ops : List (List Char)) : List Char :=
  tok ++ ops.flatMap (fun x => ' ' :: x)

theorem splitLines_of_not_mem {text : List Char} (h : '\n' ∉ text) : splitLines text = [text] := by
  induction text with
  | nil => rfl
  | cons c rest ih =>
    obtain ⟨hc, hrest⟩ := not_or.1 (mt List.mem_cons.2 h)
    simp [splitLines, ih hrest, Ne.symm hc]

theorem dropCarriageReturn_of_not_mem {line : List Char} (h : '\r' ∉ line) :
    dropCarriageReturn line = line :=
  if_neg fun he => h (List.mem_of_getLast? he)

theorem isSeparator_of_printable {c : Char} (h : 0x21 ≤ c.toNat ∧ c.toNat ≤ 0x7E) :
    isSeparator c = false := by
  have hs : c ≠ ' ' := by rintro rfl; exact absurd h (by decide)
  have ht : c ≠ '\t' := by rintro rfl; exact absurd h (by decide)
  simp [isSeparator, hs, ht, h]

/-- A run of characters that do not separate is one token where the line ends after it, or a separator stands
there. -/
theorem tokensOf_append {tok rest : List Char} (hne : tok ≠ [])
    (htok : ∀ c ∈ tok, isSeparator c = false) (hrest : ∀ c ∈ rest.head?, isSeparator c = true) :
    tokensOf (tok ++ rest) = tok :: tokensOf rest := by
  induction tok with
  | nil => exact absurd rfl hne
  | cons c more ih =>
    have hc := htok c List.mem_cons_self
    cases more with
    | nil =>
      cases rest with
      | nil => simp [tokensOf, hc]
      | cons d after =>
        have hd := hrest d rfl
        rw [List.singleton_append, tokensOf.eq_def]
        simp [hc, hd]
    | cons d more =>
      have hd := htok d (by simp)
      have ih := ih (List.cons_ne_nil _ _) (fun c hc => htok c (List.mem_cons_of_mem _ hc))
      rw [List.cons_append] at ih
      rw [List.cons_append, List.cons_append, tokensOf.eq_def]
      simp [hc, hd, ih]

theorem lineText_cons (tok x : List Char) (ops : List (List Char)) :
    lineText tok (x :: ops) = tok ++ ' ' :: lineText x ops := by
  simp [lineText]

/-- The tokens of a line's text are its first token and its operands (R92). -/
theorem tokensOf_lineText {tok : List Char} {ops : List (List Char)} (htok : IsPrintable tok)
    (hops : ∀ x ∈ ops, IsPrintable x) : tokensOf (lineText tok ops) = tok :: ops := by
  have hchars : ∀ c ∈ tok, isSeparator c = false := fun c hc => isSeparator_of_printable (htok.2 c hc)
  induction ops generalizing tok with
  | nil => exact tokensOf_append htok.1 hchars (by simp)
  | cons x rest ih =>
    obtain ⟨hx, hrest⟩ := List.forall_mem_cons.1 hops
    have hspace : tokensOf (' ' :: lineText x rest) = tokensOf (lineText x rest) := by
      rw [tokensOf.eq_def]; rfl
    rw [lineText_cons, tokensOf_append htok.1 hchars (by simp [isSeparator]), hspace,
      ih hx hrest fun c hc => isSeparator_of_printable (hx.2 c hc)]

/-- A line's text is one line of a source text (R90). -/
theorem linesOf_lineText {tok : List Char} {ops : List (List Char)} (htok : IsPrintable tok)
    (hops : ∀ x ∈ ops, IsPrintable x) : linesOf (lineText tok ops) = [lineText tok ops] := by
  have hchars : ∀ c ∈ lineText tok ops, 0x20 ≤ c.toNat := by
    intro c hc
    rcases List.mem_append.1 hc with hc | hc
    · exact Nat.le_of_succ_le (htok.2 c hc).1
    · obtain ⟨x, hx, hc⟩ := List.mem_flatMap.1 hc
      rcases List.mem_cons.1 hc with rfl | hc
      · decide
      · exact Nat.le_of_succ_le ((hops x hx).2 c hc).1
  have hn : '\n' ∉ lineText tok ops := fun h => absurd (hchars _ h) (by decide)
  have hr : '\r' ∉ lineText tok ops := fun h => absurd (hchars _ h) (by decide)
  rw [linesOf, splitLines_of_not_mem hn, List.map_singleton, dropCarriageReturn_of_not_mem hr]

/-! #### The text of an instruction (R97) -/

theorem isPrintable_mnemonic (m : OpcodeMap) (t : Tag) :
    IsPrintable (registryRow m t).mnemonic.toList := by
  cases t <;> simp [IsPrintable, registryRow]

theorem mnemonic_not_comment (m : OpcodeMap) (t : Tag) :
    (registryRow m t).mnemonic.toList.head? ≠ some AsmParams.default.comment := by
  cases t <;> simp [registryRow, AsmParams.default]

theorem isPrintable_name (r : Reg) : IsPrintable r.name.toList := by
  cases r <;> simp [IsPrintable, Reg.name]

@[simp] theorem parseRegister_name (r : Reg) : parseRegister r.name.toList = .ok r := by
  cases r <;> rfl

theorem instrText_eq_lineText (m : OpcodeMap) (i : Instr) :
    instrText m i = lineText (registryRow m i.tag).mnemonic.toList (operandTexts i) := rfl

/-- An instruction's text reads back as the instruction where its operands do. -/
theorem parseLine_instrText {m : OpcodeMap} {i : Instr} (htexts : ∀ x ∈ operandTexts i, IsPrintable x)
    (hops : parseOperands AsmParams.default m i.tag (operandTexts i) = .ok i) :
    parseLine AsmParams.default m (instrText m i) = .ok (some i) := by
  rw [instrText_eq_lineText, parseLine_of_tokens (tokensOf_lineText (isPrintable_mnemonic m i.tag) htexts)
    (mnemonic_not_comment m i.tag) (tagOfMnemonic_mnemonic m i.tag), hops]
  rfl

/-- A text whose lines are texts of instructions that read back assembles to their image. -/
theorem assemble_of_instrTexts {cfg : Config} {text : List Char} {is : List Instr}
    (hlines : linesOf text = is.map (instrText cfg.opcodes))
    (hparse : ∀ i ∈ is, parseLine AsmParams.default cfg.opcodes (instrText cfg.opcodes i) =
      .ok (some i)) :
    assemble AsmParams.default cfg text = .ok (imageOf cfg is) := by
  have hfound : (linesOf text).map (parseLine AsmParams.default cfg.opcodes) =
      (is.map some).map .ok := by
    rw [hlines, List.map_map, List.map_map]
    exact List.map_congr_left hparse
  have his : (is.map some).flatMap Option.toList = is := by simp [List.flatMap_map]
  rw [assemble_of_ok hfound, his]

theorem instrText_addRegister (m : OpcodeMap) (x y : Reg) :
    instrText m (.addRegister x y) =
      "AddRegister ".toList ++ x.name.toList ++ ' ' :: y.name.toList := by
  have hspace : "AddRegister ".toList = "AddRegister".toList ++ [' '] := by decide
  simp [instrText, operandTexts, Instr.tag, registryRow, hspace]

/-- The first name of an `AddRegister` line is its reg1 and the second its reg2 (R96). -/
theorem assemble_instrText_addRegister (cfg : Config) (x y : Reg) :
    assemble AsmParams.default cfg (instrText cfg.opcodes (.addRegister x y)) =
      .ok (encodeBytes cfg (.addRegister x y)) := by
  have htexts : ∀ n ∈ operandTexts (.addRegister x y), IsPrintable n := by
    simpa [operandTexts] using ⟨isPrintable_name x, isPrintable_name y⟩
  have hops : parseOperands AsmParams.default cfg.opcodes .addRegister
      [x.name.toList, y.name.toList] = .ok (.addRegister x y) := by
    simp [parseOperands, withRegisters, withRegister]
  refine assemble_of_instrTexts (is := [.addRegister x y])
    (linesOf_lineText (isPrintable_mnemonic _ _) htexts) ?_
  simpa using parseLine_instrText htexts hops

/-! ### Statements about the assembler -/

/-- Settles O54: the arity is the count that `parseOperands` checks first, and no operand's own fault is an
arity fault. -/
theorem operandCountMustEqualTheArity : Obligations.OperandCountMustEqualTheArity := by
  intro p m number line rest tok ops t htok hc ht
  have hline := parseLine_of_tokens htok hc ht
  refine ⟨fun hne => parseLines_of_error ?_ number rest, fun heq e a h => ?_⟩
  · rw [hline, parseOperands_of_length_ne hne]; rfl
  · rw [hline] at h
    cases hp : parseOperands p m t ops with
    | ok i => rw [hp] at h; cases h
    | error why => rw [hp] at h; cases h; exact parseOperands_ne_arity heq e a hp

/-- Settles O58: the two operands of the text are read from left to right into the two fields of the word. -/
theorem addRegisterTextFixesTheOrder : Obligations.AddRegisterTextFixesTheOrder := by
  refine ⟨fun cfg x y => ⟨?_, ?_, ?_, fun s => ⟨_, rfl, ?_⟩⟩, fun s ha hb => ⟨_, rfl, ?_⟩⟩
  · rw [← instrText_addRegister cfg.opcodes]
    exact assemble_instrText_addRegister cfg x y
  · rw [encode, Instr.operandByte, reg1Field_wordOfBytes, Reg.ofField_toField]
  · rw [encode, Instr.operandByte, reg2Field_wordOfBytes, Reg.ofField_toField]
  · simp [registerOperand]
  · have hsum : add16 0xFFFF#16 0x0002#16 = 0x0001#16 := by decide
    simp [registerOperand, ha, hb, hsum]

/-- Settles O59: the image is the encodings of the instructions found, line by line. -/
theorem acceptedLinesEmitTheirWordsInOrder : Obligations.AcceptedLinesEmitTheirWordsInOrder := by
  refine ⟨fun p cfg text found h => ?_, fun cfg => assemble_of_instrTexts ?_ ?_⟩
  · rw [assemble_of_ok h, imageOf, List.flatMap_assoc]
    congr
    funext o
    cases o <;> rfl
  · have hlines : linesOf "Push 10\nPush 8\nAddStack\nPopRegister A".toList =
        ["Push 10".toList, "Push 8".toList, "AddStack".toList, "PopRegister A".toList] := by decide
    rw [hlines]
    simp [instrText, Instr.tag, registryRow, operandTexts, Reg.name, decimalText]
  · simp only [List.forall_mem_cons]
    refine ⟨parseLine_instrText ?_ rfl, parseLine_instrText ?_ rfl, parseLine_instrText ?_ rfl,
      parseLine_instrText ?_ rfl, by simp⟩ <;>
    simp [operandTexts, decimalText, Reg.name, IsPrintable]

end Sys2Proof.Machine

/-! ### The advance and `Nop` (R112 and R119 of spec/40_dispatch.md) -/

namespace Sys2Proof.Machine

section Advance

variable {s u : State} {i : Instr}

/-- A fetch that answers found PC + 2 in 16 bits, and leaves the advanced state. -/
theorem fetch_eq_ok_advanced (h : fetch s = .ok (i, u)) :
    s.pcNat + 2 ≤ 0xFFFF ∧ u = s.advanced s.pcNat := by
  rcases fetch_cases s with ⟨_, -, e⟩ | ⟨_, -, -, e⟩ | ⟨_, _, -, -, -, e⟩ | ⟨_, _, -, hpc, -, e⟩ <;>
    rw [e] at h
  · cases h
  · cases h
  · cases h
  · cases h; exact ⟨hpc, rfl⟩

theorem State.pcNat_advanced {a : Nat} (h : a + 2 ≤ 0xFFFF) : (s.advanced a).pcNat = a + 2 := by
  rw [State.pcNat, State.getReg_advanced, if_pos rfl, BitVec.toNat_ofNat]
  omega

theorem State.sameRegsBut_advanced (s : State) (a : Nat) : s.SameRegsBut (s.advanced a) [.pc] := by
  intro r hr
  rw [State.getReg_advanced, if_neg (by simpa using hr)]

theorem State.sameControl_advanced (s : State) (a : Nat) : s.SameControl (s.advanced a) :=
  ⟨rfl, rfl, rfl, rfl⟩

/-- A step that fetches an instruction runs it on the fetched state. -/
theorem step_of_fetch_ok (h : fetch s = .ok (i, u)) : step s = exec i u := by
  rw [step, h]

end Advance

/-- The bare arm refuses an operand byte in strict mode (R83). -/
theorem decodeBare_of_reserved {w : Word} (h : highByte w ≠ 0#8) (i : Instr) :
    decodeBare true w i = .error (.reservedBitsSet w) := if_pos ⟨rfl, h⟩

/-- The bare arm accepts a zero operand byte in both modes. -/
theorem decodeBare_of_highByte_eq {w : Word} (h : highByte w = 0#8) (strict : Bool) (i : Instr) :
    decodeBare strict w i = .ok i := if_neg fun hr => hr.2 h

@[simp] theorem exec_nop (s : State) : exec .nop s = .next s := rfl

/-- Settles O26: a `Nop` step leaves the advanced state, and its word goes through the bare arm of the
decoder. -/
theorem nopHasNoEffect : Obligations.NopHasNoEffect := by
  refine ⟨exec_nop, fun cfg => ⟨lowByte_wordOfBytes _ _, highByte_wordOfBytes _ _⟩,
    fun s u h => ?_, fun n strict => ?_, fun cfg w ht hs hw => ?_⟩
  · obtain ⟨hpc, rfl⟩ := fetch_eq_ok_advanced h
    exact ⟨_, (step_of_fetch_ok h).trans (exec_nop _), State.pcNat_advanced hpc,
      s.sameRegsBut_advanced _, State.advanced_mem _ _, s.sameControl_advanced _⟩
  · have ht : tagOfCode OpcodeMap.default (lowByte 0x0000#16) = some .nop := by decide
    have hword : wordOfBytes 0#8 0#8 = 0x0000#16 := by decide
    have hhigh : highByte 0x0000#16 = 0#8 := by decide
    refine ⟨hword, ?_⟩
    rw [decode_of_tagOfCode ht]
    exact decodeBare_of_highByte_eq hhigh strict .nop
  · rw [decode_of_tagOfCode ht, hs]
    exact decodeBare_of_reserved hw .nop

end Sys2Proof.Machine

/-! ### `AddRegister` (R145 of spec/42_register_arith.md) -/

namespace Sys2Proof.Machine

/-- A word of tag `AddRegister` whose two fields name registers decodes to those registers (R80). -/
theorem decode_addRegister {cfg : Config} {w : Word} {r1 r2 : Reg}
    (ht : tagOfCode cfg.opcodes (lowByte w) = some .addRegister)
    (h1 : Reg.ofField (reg1Field w) = some r1) (h2 : Reg.ofField (reg2Field w) = some r2) :
    decode cfg w = .ok (.addRegister r1 r2) := by
  rw [decode_of_tagOfCode ht]
  exact decodeTwoRegisters_eq_ok.2
    ⟨r1, r2, Reg.ofField_eq_some.1 h1, Reg.ofField_eq_some.1 h2, rfl⟩

@[simp] theorem exec_addRegister (r1 r2 : Reg) (s : State) :
    exec (.addRegister r1 r2) s =
      .next (s.setReg r1 (add16 (s.getReg r1) (s.getReg r2))) := rfl

theorem State.sameRegsBut_setReg (s : State) (r : Reg) (v : Word) :
    s.SameRegsBut (s.setReg r v) [r] := by
  intro q hq
  rw [State.getReg_setReg, if_neg (by simpa using hq)]

theorem State.sameControl_setReg (s : State) (r : Reg) (v : Word) :
    s.SameControl (s.setReg r v) := ⟨rfl, rfl, rfl, rfl⟩

/-- Settles O34: `AddRegister` is one register write of the sum, and its step runs it on the advanced
state. -/
theorem addRegisterAdds : Obligations.AddRegisterAdds := by
  refine ⟨fun cfg w r1 r2 => decode_addRegister, fun cfg r1 r2 => ?_, fun s r1 r2 => ?_,
    fun s u r1 r2 h => ?_⟩
  · obtain ⟨-, h1, h2, -⟩ := addRegisterTextFixesTheOrder.1 cfg r1 r2
    exact ⟨lowByte_wordOfBytes _ _, h1, h2⟩
  · refine ⟨_, exec_addRegister r1 r2 s, ?_, s.sameRegsBut_setReg r1 _, State.setReg_mem _ _ _,
      s.sameControl_setReg r1 _⟩
    rw [State.getReg_setReg, if_pos rfl, toNat_add16]
  · obtain ⟨hpc, rfl⟩ := fetch_eq_ok_advanced h
    exact ⟨step_of_fetch_ok h, State.pcNat_advanced hpc, s.sameRegsBut_advanced _⟩

end Sys2Proof.Machine

/-! ### Construction (R36, R195 of spec/70_reset_and_hazards.md) -/

namespace Sys2Proof.Machine

@[simp] theorem RegFile.get_zero (r : Reg) : RegFile.zero.get r = 0#16 := by
  cases r <;> rfl

@[simp] theorem State.getReg_construct (cfg : Config) (r : Reg) :
    (State.construct cfg).getReg r = 0#16 := RegFile.get_zero r

@[simp] theorem State.entry_construct (cfg : Config) (id : Byte) :
    (State.construct cfg).entry id = none := rfl

@[simp] theorem State.pcNat_construct (cfg : Config) : (State.construct cfg).pcNat = 0 := by
  simp [State.pcNat]

@[simp] theorem State.spNat_construct (cfg : Config) : (State.construct cfg).spNat = 0 := by
  simp [State.spNat]

/-- The host's `construct` discards the old machine: only its parameters and the count of its draws go on
(log 33). -/
theorem hostOp_construct (s : State) :
    hostOp .construct s = .success .done { State.construct s.cfg with draws := s.draws } := rfl

/-- Settles O19: each component reads as zero or empty at construction, and the host's `construct` gives a
machine that differs from it in the draw counter alone. -/
theorem constructionState : Obligations.ConstructionState := by
  refine ⟨rfl, fun cfg => ⟨State.getReg_construct cfg, State.byteAt_construct cfg,
    State.construct_halt cfg, State.entry_construct cfg, State.pcNat_construct cfg,
    State.spNat_construct cfg, ?_⟩⟩
  rintro s rfl
  exact ⟨_, hostOp_construct s, rfl, rfl, rfl, rfl⟩

end Sys2Proof.Machine

/-! ### Encoding and decoding (R80 to R85 of spec/30_encoding.md) -/

namespace Sys2Proof

open Machine (decodeBare_of_highByte_eq lowByte_wordOfBytes highByte_wordOfBytes wordOfBytes_low_high)

/-! #### A word and its fields (R71) -/

/-- The operand byte of a word is its two register fields. -/
theorem highByte_eq_fields (w : Word) : highByte w = reg2Field w ++ reg1Field w := by
  apply BitVec.eq_of_toNat_eq
  rw [toNat_append_fields, toNat_reg1Field, toNat_reg2Field, toNat_highByte]
  omega

theorem Reg.toField_eq {f : BitVec 4} {r : Reg} (h : r.ord = f.toNat) : r.toField = f := by
  rw [Reg.toField, h, BitVec.ofNat_toNat, BitVec.setWidth_eq]

theorem Reg.toNat_toField (r : Reg) : r.toField.toNat = r.ord :=
  (Reg.ofField_eq_some.1 r.ofField_toField).symm

/-! #### Decoding an encoded instruction -/

/-- The operands of an encoded instruction are read back as the instruction, in both modes. -/
theorem decodeOperands_encode (cfg : Config) (strict : Bool) (i : Instr) :
    decodeOperands strict (encode cfg i) i.tag = .ok i := by
  cases i with
  | nop | addStack => exact decodeBare_of_highByte_eq (highByte_wordOfBytes _ _) strict _
  | push v | signal v => simp [decodeOperands, Instr.tag, encode, Instr.operandByte]
  | popRegister r | pushRegister r =>
    exact decodeOneRegister_eq_ok.2
      ⟨r, by simp [encode, Instr.operandByte, Reg.toNat_toField],
        fun _ => by simp [encode, Instr.operandByte], rfl⟩
  | addRegister r1 r2 =>
    exact decodeTwoRegisters_eq_ok.2
      ⟨r1, r2, by simp [encode, Instr.operandByte, Reg.toNat_toField],
        by simp [encode, Instr.operandByte, Reg.toNat_toField], rfl⟩

/-- Settles O6: under an injective map the code of a tag names the tag, whose arm reads the operands back. -/
theorem decodeEncodeRoundTrip : Obligations.DecodeEncodeRoundTrip := by
  intro cfg hm i
  have htag : tagOfCode cfg.opcodes (lowByte (encode cfg i)) = some i.tag := by
    rw [Laws.WordParts.lowByte_encode, tagOfCode_codeOf hm]
  rw [decode_of_tagOfCode htag, decodeOperands_encode]

/-! #### Encoding a decoded word -/

/-- Everything the bare arm accepts. -/
theorem decodeBare_eq_ok {strict : Bool} {w : Word} {i j : Instr} :
    decodeBare strict w i = .ok j ↔ (strict = true → highByte w = 0#8) ∧ i = j := by
  unfold decodeBare
  by_cases h : strict = true ∧ highByte w ≠ 0#8
  · simp [h]
  · have hunused : strict = true → highByte w = 0#8 := fun hs => not_not.1 fun hw => h ⟨hs, hw⟩
    simp only [if_neg h, Except.ok.injEq]
    exact (and_iff_right hunused).symm

theorem not_wordOfBytes (lo hi : Byte) : ~~~ wordOfBytes lo hi = wordOfBytes (~~~ lo) (~~~ hi) :=
  BitVec.not_append

/-- No shape leaves a bit of the opcode unused. -/
theorem lowByte_unusedBits (i : Instr) : lowByte i.unusedBits = 0#8 := by
  have hbare : lowByte 0xFF00#16 = 0#8 := by decide
  have hone : lowByte 0xF000#16 = 0#8 := by decide
  have hall : lowByte 0x0000#16 = 0#8 := by decide
  cases i <;> assumption

/-- The operand byte of a decoded word is the word's high byte without the bits its shape does not use, and in
strict mode the high byte itself. -/
theorem operandByte_of_decode_ok {cfg : Config} {w : Word} {i : Instr} (h : decode cfg w = .ok i) :
    i.operandByte = highByte w &&& ~~~ highByte i.unusedBits ∧
      (cfg.strict = true → i.operandByte = highByte w) := by
  have hop := decodeOperands_tag_of_decode_ok h
  have hbare : ~~~ highByte 0xFF00#16 = 0#8 := by decide
  have hone : ~~~ highByte 0xF000#16 = 0#4 ++ BitVec.allOnes 4 := by decide
  have hall : ~~~ highByte 0x0000#16 = BitVec.allOnes 8 := by decide
  cases i with
  | nop | addStack =>
    obtain ⟨hw, -⟩ := decodeBare_eq_ok.1 hop
    exact ⟨by simp [Instr.operandByte, Instr.unusedBits, hbare], fun hs => (hw hs).symm⟩
  | push v | signal v =>
    cases hop
    exact ⟨by rw [Instr.operandByte, Instr.unusedBits, hall, BitVec.and_allOnes], fun _ => rfl⟩
  | popRegister r | pushRegister r =>
    obtain ⟨_, hr, hw, ⟨⟩⟩ := decodeOneRegister_eq_ok.1 hop
    refine ⟨?_, fun hs => ?_⟩
    · simp only [Instr.operandByte, Instr.unusedBits]
      rw [hone, highByte_eq_fields, Reg.toField_eq hr, BitVec.and_append, BitVec.and_zero, BitVec.and_allOnes]
    · rw [Instr.operandByte, Reg.toField_eq hr, highByte_eq_fields, hw hs]
  | addRegister r1 r2 =>
    obtain ⟨_, _, h1, h2, ⟨⟩⟩ := decodeTwoRegisters_eq_ok.1 hop
    have hbyte : (Instr.addRegister r1 r2).operandByte = highByte w := by
      rw [Instr.operandByte, Reg.toField_eq h1, Reg.toField_eq h2, highByte_eq_fields]
    exact ⟨by rw [hbyte, Instr.unusedBits, hall, BitVec.and_allOnes], fun _ => hbyte⟩

/-- Settles O7: the opcode of a decoded word is its tag's code, and its operand byte is the word's without the
unused bits. -/
theorem encodeDecodeRoundTrip : Obligations.EncodeDecodeRoundTrip := by
  intro cfg w i h
  obtain ⟨hbyte, hstrict⟩ := operandByte_of_decode_ok h
  have hencode : encode cfg i = wordOfBytes (lowByte w) i.operandByte := by
    rw [encode, codeOf_tag_of_decode_ok h]
  refine ⟨?_, fun hs => ?_⟩
  · calc encode cfg i
        = wordOfBytes (lowByte w &&& ~~~ 0#8) (highByte w &&& ~~~ highByte i.unusedBits) := by
          rw [hencode, hbyte, BitVec.not_zero, BitVec.and_allOnes]
      _ = w &&& ~~~ i.unusedBits := by
          rw [← Laws.WordParts.and_wordOfBytes, ← not_wordOfBytes, ← lowByte_unusedBits i,
            wordOfBytes_low_high, wordOfBytes_low_high]
  · rw [hencode, hstrict hs, wordOfBytes_low_high]

/-! #### Legal words (R77, R82) -/

/-- A word is legal for a tag when its opcode names the tag and the tag's arm accepts its operands. -/
theorem exists_decode_ok_iff {cfg : Config} {w : Word} {t : Tag} :
    (∃ i, decode cfg w = .ok i ∧ i.tag = t) ↔
      tagOfCode cfg.opcodes (lowByte w) = some t ∧ ∃ i, decodeOperands cfg.strict w t = .ok i := by
  constructor
  · rintro ⟨i, h, rfl⟩
    refine ⟨?_, i, decodeOperands_tag_of_decode_ok h⟩
    unfold decode at h
    split at h
    · cases h
    · next ht => rwa [tag_of_decodeOperands_ok h]
  · rintro ⟨ht, i, hi⟩
    exact ⟨i, (decode_of_tagOfCode ht).trans hi, tag_of_decodeOperands_ok hi⟩

section Arms

variable {strict : Bool} {w : Word}

theorem Reg.exists_ord_eq_iff {f : BitVec 4} : (∃ r : Reg, r.ord = f.toNat) ↔ f.toNat < 8 := by
  simp only [← Reg.ofField_eq_some]
  refine ⟨fun ⟨r, h⟩ => ?_, Reg.exists_ofField_of_lt⟩
  rw [← Reg.ofField_eq_some.1 h]
  exact r.ord_lt

theorem exists_decodeBare_ok_iff {i : Instr} :
    (∃ j, decodeBare strict w i = .ok j) ↔ (strict = true → highByte w = 0#8) := by
  simp [decodeBare_eq_ok]

theorem exists_decodeOneRegister_ok_iff {mk : Reg → Instr} :
    (∃ i, decodeOneRegister strict w mk = .ok i) ↔
      (reg1Field w).toNat < 8 ∧ (strict = true → reg2Field w = 0#4) := by
  simp only [decodeOneRegister_eq_ok, ← Reg.exists_ord_eq_iff]
  exact ⟨fun ⟨_, r, hr, hw, _⟩ => ⟨⟨r, hr⟩, hw⟩, fun ⟨⟨r, hr⟩, hw⟩ => ⟨_, r, hr, hw, rfl⟩⟩

theorem exists_decodeTwoRegisters_ok_iff {mk : Reg → Reg → Instr} :
    (∃ i, decodeTwoRegisters w mk = .ok i) ↔
      (reg1Field w).toNat < 8 ∧ (reg2Field w).toNat < 8 := by
  simp only [decodeTwoRegisters_eq_ok, ← Reg.exists_ord_eq_iff]
  exact ⟨fun ⟨_, r1, r2, h1, h2, _⟩ => ⟨⟨r1, h1⟩, r2, h2⟩,
    fun ⟨⟨r1, h1⟩, r2, h2⟩ => ⟨_, r1, r2, h1, h2, rfl⟩⟩

end Arms

/-- A code names exactly the tag it is the code of. -/
theorem tagOfCode_eq_some_iff {m : OpcodeMap} (hm : m.injective) {op : Byte} {t : Tag} :
    tagOfCode m op = some t ↔ op = codeOf m t :=
  ⟨fun h => (codeOf_of_tagOfCode h).symm, fun h => h ▸ tagOfCode_codeOf hm t⟩

/-- A word fits a pattern when its low byte is the pattern's and its high byte fits the pattern's. -/
theorem and_eq_wordOfBytes_iff {w : Word} {mask hi lo : Byte} :
    w &&& wordOfBytes 0xFF#8 mask = wordOfBytes lo hi ↔ lowByte w = lo ∧ highByte w &&& mask = hi := by
  have hand : w &&& wordOfBytes 0xFF#8 mask = wordOfBytes (lowByte w) (highByte w &&& mask) := by
    conv_lhs => rw [← wordOfBytes_low_high w, Laws.WordParts.and_wordOfBytes]
    rw [show (0xFF#8 : Byte) = BitVec.allOnes 8 from rfl, BitVec.and_allOnes]
  rw [hand]
  refine ⟨fun h => ?_, fun ⟨hl, hh⟩ => hl ▸ hh ▸ rfl⟩
  have hl := congrArg lowByte h
  have hh := congrArg highByte h
  simp only [lowByte_wordOfBytes, highByte_wordOfBytes] at hl hh
  exact ⟨hl, hh⟩

/-- The byte of R77's mask that selects the operand bits which must be 0. -/
def operandMask (strict : Bool) : Tag → Byte
  | .nop | .addStack => if strict then 0xFF#8 else 0x00#8
  | .push | .signal => 0x00#8
  | .popRegister | .pushRegister => if strict then 0xF8#8 else 0x08#8
  | .addRegister => 0x88#8

theorem patternMask_eq (strict : Bool) (t : Tag) :
    patternMask strict t = wordOfBytes 0xFF#8 (operandMask strict t) := by
  cases t <;> cases strict <;> decide

theorem patternMatch_eq (t : Tag) :
    patternMatch t = wordOfBytes (codeOf OpcodeMap.default t) 0x00#8 := by
  cases t <;> decide

/-- Masking the operand byte field by field. -/
theorem highByte_and_fields_eq_zero_iff {w : Word} {m2 m1 : BitVec 4} :
    highByte w &&& (m2 ++ m1) = 0#8 ↔ reg1Field w &&& m1 = 0#4 ∧ reg2Field w &&& m2 = 0#4 := by
  have happend : ∀ f2 f1 : BitVec 4, (f2 ++ f1 : Byte) = 0#8 ↔ f1 = 0#4 ∧ f2 = 0#4 := by decide
  rw [highByte_eq_fields, BitVec.and_append, happend]

/-- Operands are legal exactly when the masked bits of the operand byte are 0. -/
theorem exists_decodeOperands_ok_iff {strict : Bool} {w : Word} {t : Tag} :
    (∃ i, decodeOperands strict w t = .ok i) ↔ highByte w &&& operandMask strict t = 0#8 := by
  have hlegal : ∀ f : BitVec 4, f.toNat < 8 ↔ f &&& 8#4 = 0#4 := by decide
  have hFF : (0xFF#8 : Byte) = BitVec.allOnes 8 := by decide
  have hF8 : (0xF8#8 : Byte) = BitVec.allOnes 4 ++ 8#4 := by decide
  have h08 : (0x08#8 : Byte) = 0#4 ++ 8#4 := by decide
  have h88 : (0x88#8 : Byte) = 8#4 ++ 8#4 := by decide
  cases t with
  | nop | addStack =>
    refine exists_decodeBare_ok_iff.trans ?_
    cases strict
    · simp [operandMask]
    · rw [operandMask, if_pos rfl, hFF, BitVec.and_allOnes, imp_iff_right rfl]
  | push | signal => simp [decodeOperands, operandMask]
  | popRegister | pushRegister =>
    refine exists_decodeOneRegister_ok_iff.trans ?_
    rw [hlegal]
    cases strict
    · rw [operandMask, if_neg Bool.false_ne_true, h08, highByte_and_fields_eq_zero_iff]
      simp
    · rw [operandMask, if_pos rfl, hF8, highByte_and_fields_eq_zero_iff, BitVec.and_allOnes,
        imp_iff_right rfl]
  | addRegister =>
    refine exists_decodeTwoRegisters_ok_iff.trans ?_
    rw [hlegal, hlegal, operandMask, h88, highByte_and_fields_eq_zero_iff]

/-- Settles O8: a pattern fixes the opcode in its low byte and the bits that must be 0 in its high byte. -/
theorem legalWordsFitThePatternTable : Obligations.LegalWordsFitThePatternTable := by
  intro n strict w t
  have hm : OpcodeMap.default.injective := by decide
  rw [exists_decode_ok_iff, tagOfCode_eq_some_iff hm, exists_decodeOperands_ok_iff, patternMask_eq,
    patternMatch_eq, and_eq_wordOfBytes_iff]

/-! #### The first check that fails (R82) -/

theorem highByte_eq_zero_iff {w : Word} : highByte w = 0#8 ↔ w.toNat / 256 = 0 := by
  rw [← BitVec.toNat_inj, toNat_highByte]; rfl

section FirstCheck

variable {strict : Bool} {w : Word}

/-- The one check of the bare arm: in strict mode a set operand bit is refused. -/
theorem decodeBare_of_strict (hs : strict = true) (hw : w.toNat / 256 ≠ 0) (i : Instr) :
    decodeBare strict w i = .error (.reservedBitsSet w) :=
  if_pos ⟨hs, mt highByte_eq_zero_iff.1 hw⟩

/-- The two checks of the one-register arm: its register, then in strict mode its unused bits. -/
theorem decodeOneRegister_checks (mk : Reg → Instr) :
    if 8 ≤ (reg1Field w).toNat then
      decodeOneRegister strict w mk = .error (.unknownRegister (reg1Field w))
    else if strict = true ∧ (reg2Field w).toNat ≠ 0 then
      decodeOneRegister strict w mk = .error (.reservedBitsSet w)
    else ∃ i, decodeOneRegister strict w mk = .ok i := by
  have hzero : (reg2Field w).toNat = 0 ↔ reg2Field w = 0#4 := BitVec.toNat_inj (y := 0#4)
  split
  · next h1 => exact decodeOneRegister_of_le mk h1
  · next h1 =>
    split
    · next h2 =>
      obtain ⟨r, hr⟩ := exists_decodeReg_of_lt (Nat.not_le.1 h1)
      rw [decodeOneRegister, hr]
      exact if_pos ⟨h2.1, mt hzero.2 h2.2⟩
    · next h2 =>
      refine exists_decodeOneRegister_ok_iff.2 ⟨Nat.not_le.1 h1, fun hs => ?_⟩
      exact hzero.1 (not_not.1 fun hw => h2 ⟨hs, hw⟩)

end FirstCheck

/-- Settles O9: the opcode is looked up first, and each arm makes its checks from left to right. -/
theorem decodeReportsTheFirstFailingCheck : Obligations.DecodeReportsTheFirstFailingCheck := by
  intro cfg w
  rw [← toNat_reg1Field, ← toNat_reg2Field]
  refine ⟨fun ht => by rw [decode, ht], fun t ht hbare => ?_, fun t ht hone => ?_, fun ht => ?_⟩
  · rw [exists_decode_ok_iff, and_iff_right ht, decode_of_tagOfCode ht, ← highByte_eq_zero_iff]
    rcases hbare with rfl | rfl
    · exact ⟨exists_decodeBare_ok_iff, fun hs hw => decodeBare_of_strict hs hw _⟩
    · exact ⟨exists_decodeBare_ok_iff, fun hs hw => decodeBare_of_strict hs hw _⟩
  · rw [exists_decode_ok_iff, and_iff_right ht, decode_of_tagOfCode ht]
    rcases hone with rfl | rfl
    · exact decodeOneRegister_checks _
    · exact decodeOneRegister_checks _
  · rw [exists_decode_ok_iff, and_iff_right ht, decode_of_tagOfCode ht]
    split
    · next h1 => exact decodeTwoRegisters_of_reg1_le _ h1
    · next h1 =>
      split
      · next h2 => exact decodeTwoRegisters_of_reg2_le _ (Nat.not_le.1 h1) h2
      · next h2 => exact exists_decodeTwoRegisters_ok_iff.2 ⟨Nat.not_le.1 h1, Nat.not_le.1 h2⟩

/-! #### Sample words -/

/-- Settles O10: each word is one evaluation of the decoder. -/
theorem sampleWordsDecode : Obligations.SampleWordsDecode := by
  unfold Obligations.SampleWordsDecode
  decide

end Sys2Proof

/-! ### What a step leaves (R20, R31 to R34, R114; R120 of spec/40_dispatch.md)

Every outcome of a step is a next state, a failure with the state it leaves, or a handler that never returns.
`Host.Outcome.Leaves P` says of an outcome that it is one of these three and that its state meets P; so one
lemma for each operation gives what holds of the next state and of the state a fault leaves. -/

namespace Sys2Proof.Machine

/-- The outcome is no refusal, and the state it leaves, if it leaves one, meets P. -/
def Leaves (P : State → Prop) : Host.Outcome State Fault Refusal → Prop
  | .next t => P t
  | .fault (.failed _ left) => P left
  | .fault (.handlerHang _) => True
  | .refused _ => False

section Leaves

variable {P Q : State → Prop} {s t : State} {o : Host.Outcome State Fault Refusal}

theorem Leaves.mono (h : Leaves P o) (hPQ : ∀ t, P t → Q t) : Leaves Q o := by
  cases o with
  | next t => exact hPQ t h
  | fault f =>
    cases f with
    | failed why left => exact hPQ left h
    | handlerHang id => trivial
  | refused r => exact h

theorem Leaves.next (h : Leaves P o) (ho : o = .next t) : P t := by subst ho; exact h

theorem Leaves.failed {why : Failure} (h : Leaves P o) (ho : o = .fault (.failed why t)) : P t := by
  subst ho; exact h

theorem Leaves.resume {f : Fault} (h : Leaves P o) (ho : o = .fault f) (hf : f.resume = some t) : P t := by
  cases f with
  | failed why left => cases hf; exact h.failed ho
  | handlerHang id => cases hf

/-- What a step leaves is the state itself, the advanced state, or what the fetched instruction leaves. -/
theorem step_leaves (hs : P s) (hadv : P (s.advanced s.pcNat))
    (hexec : ∀ i, fetch s = .ok (i, s.advanced s.pcNat) → Leaves P (exec i (s.advanced s.pcNat))) :
    Leaves P (step s) := by
  rcases fetch_cases s with ⟨_, -, e⟩ | ⟨_, -, -, e⟩ | ⟨_, _, -, -, -, e⟩ | ⟨_, i, -, -, -, e⟩ <;>
    rw [step, e]
  · exact hs
  · exact hs
  · exact hadv
  · exact hexec i e

end Leaves

/-! #### What every instruction but `Signal` keeps -/

/-- The parameters, halt and the handler table are kept, and memory keeps its canonical form. -/
def State.CoreKept (s t : State) : Prop := s.MemKept t ∧ t.halt = s.halt ∧ t.table = s.table

section CoreKept

variable {s t u : State}

theorem State.CoreKept.refl (s : State) : s.CoreKept s := ⟨.refl s, rfl, rfl⟩

theorem State.CoreKept.trans (h : s.CoreKept t) (k : t.CoreKept u) : s.CoreKept u :=
  ⟨h.1.trans k.1, k.2.1.trans h.2.1, k.2.2.trans h.2.2⟩

theorem State.CoreKept.setReg (s : State) (r : Reg) (v : Word) : s.CoreKept (s.setReg r v) :=
  ⟨.of_eq rfl rfl, rfl, rfl⟩

theorem State.CoreKept.nextDraw (s : State) : s.CoreKept s.nextDraw := ⟨.of_eq rfl rfl, rfl, rfl⟩

theorem State.CoreKept.setByte {a : Int} (v : Byte) (h : s.inRange a = true) :
    s.CoreKept (s.setByte a.toNat v) := ⟨.setByte v h, rfl, rfl⟩

theorem State.CoreKept.write {a : Int} {v : Byte} (h : s.write a v = some t) : s.CoreKept t := by
  obtain ⟨hr, rfl⟩ := State.write_eq_some.1 h
  exact .setByte v hr

theorem State.CoreKept.write2 {a : Int} {v : Word} (h : s.write2 a v = .ok t) : s.CoreKept t := by
  obtain ⟨h0, h1, rfl⟩ := State.write2_eq_ok.1 h
  exact (State.CoreKept.setByte _ h0).trans (.setByte _ h1)

theorem State.CoreKept.write2_failed {a bad : Int} {v : Word} (h : s.write2 a v = .error (bad, t)) :
    s.CoreKept t := by
  rcases State.write2_eq_error.1 h with ⟨-, -, rfl⟩ | ⟨h0, -, -, rfl⟩
  · exact .refl t
  · rcases s.halfWritten_cases a v with e | e <;> rw [e]
    · exact .nextDraw s
    · exact (State.CoreKept.setByte _ h0).trans (.nextDraw _)

theorem State.CoreKept.halfPopped (s : State) (top : Nat) : s.CoreKept (s.halfPopped top) := by
  rcases s.halfPopped_cases top with e | e <;> rw [e]
  · exact .nextDraw s
  · exact (State.CoreKept.setReg s _ _).trans (.nextDraw _)

/-- A push keeps the core state, whether it completes or fails. -/
theorem pushWord_leaves_coreKept (v : Word) (s : State) : Leaves s.CoreKept (pushWord v s) := by
  simp only [pushWord]
  split
  · exact .refl s
  · split
    · next h => exact .write2_failed h
    · next h => exact (State.CoreKept.write2 h).trans (.setReg _ _ _)

theorem execPopRegister_leaves_coreKept (r : Reg) (s : State) :
    Leaves s.CoreKept (execPopRegister r s) := by
  rcases execPopRegister_cases r s with ⟨_, -, e⟩ | ⟨_, -, e⟩ <;> rw [e]
  · exact (State.CoreKept.setReg s _ _).trans (.setReg _ _ _)
  · exact .refl s

theorem execAddStack_leaves_coreKept (s : State) : Leaves s.CoreKept (execAddStack s) := by
  simp only [execAddStack]
  split
  · exact .refl s
  · split
    · exact .halfPopped s _
    · split
      · next h => exact .write2_failed h
      · next h => exact (State.CoreKept.write2 h).trans (.setReg _ _ _)

/-- An instruction other than `Signal` keeps the core state, whether it completes or fails. -/
theorem exec_leaves_coreKept {i : Instr} (hi : i.isSignal = false) (s : State) :
    Leaves s.CoreKept (exec i s) := by
  cases i with
  | nop => exact .refl s
  | push imm => exact pushWord_leaves_coreKept _ s
  | popRegister r => exact execPopRegister_leaves_coreKept r s
  | pushRegister r => exact pushWord_leaves_coreKept _ s
  | addStack => exact execAddStack_leaves_coreKept s
  | addRegister r1 r2 => exact .setReg s _ _
  | signal id => cases hi

end CoreKept

/-- Settles O46: a step without a `Signal` advances PC and runs an instruction that keeps both. -/
theorem onlySignalTouchesHaltAndTable : Obligations.OnlySignalTouchesHaltAndTable := by
  intro s hno
  have hstep : Leaves s.CoreKept (step s) :=
    step_leaves (.refl s) (.setReg s _ _) fun i hi =>
      (exec_leaves_coreKept (hno i _ hi) _).mono fun _ => (State.CoreKept.setReg s _ _).trans
  exact ⟨fun t h => (hstep.next h).2, fun why left h => (hstep.failed h).2⟩

/-! #### The invariant -/

/-- The parameters are kept, and memory and the handler table keep their canonical forms. -/
def State.InvKept (s t : State) : Prop :=
  s.MemKept t ∧ (Table.wf s.table → Table.wf t.table)

section InvKept

variable {s t u : State}

theorem State.InvKept.refl (s : State) : s.InvKept s := ⟨.refl s, id⟩

theorem State.InvKept.trans (h : s.InvKept t) (k : t.InvKept u) : s.InvKept u :=
  ⟨h.1.trans k.1, k.2 ∘ h.2⟩

theorem State.CoreKept.invKept (h : s.CoreKept t) : s.InvKept t := ⟨h.1, by rw [h.2.2]; exact id⟩

theorem State.InvKept.setEntry (s : State) (id : Byte) (e : Option Handler) :
    s.InvKept (s.setEntry id e) := ⟨.of_eq rfl rfl, Table.wf_setEntry id e⟩

theorem State.InvKept.inv (h : s.InvKept t) (hs : s.Inv) : t.Inv ∧ t.cfg = s.cfg := by
  obtain ⟨⟨hcfg, hmem, hwithin⟩, htable⟩ := h
  obtain ⟨hc, hm, hw, ht⟩ := hs
  exact ⟨⟨hcfg ▸ hc, hmem hm, hwithin hw, htable ht⟩, hcfg⟩

/-- `Signal` keeps the invariant, whatever the writes of a handler are and whether it succeeds or fails. -/
theorem execSignal_leaves_invKept (id : Byte) (s : State) : Leaves s.InvKept (execSignal id s) := by
  rcases execSignal_cases id s with ⟨-, e⟩ | ⟨-, e⟩ | ⟨_, -, -, e⟩ | ⟨_, o, -, -, e⟩ <;> rw [e]
  · exact .refl s
  · exact ⟨.of_eq rfl rfl, fun h => h⟩
  · trivial
  · have hacts : s.InvKept (s.nextDraw.afterActions o.actions) :=
      (State.CoreKept.nextDraw s).invKept.trans (s.nextDraw.afterActions_kept o.actions)
    rcases s.nextDraw.finishSignal_cases id o with ⟨-, e⟩ | ⟨_, -, e⟩ <;> rw [e]
    · exact hacts
    · exact hacts

theorem exec_leaves_invKept (i : Instr) (s : State) : Leaves s.InvKept (exec i s) := by
  cases hi : i.isSignal with
  | false => exact (exec_leaves_coreKept hi s).mono fun _ => State.CoreKept.invKept
  | true =>
    cases i with
    | signal id => exact execSignal_leaves_invKept id s
    | nop | push _ | popRegister _ | pushRegister _ | addStack | addRegister _ _ => cases hi

/-- A step keeps the invariant in every state it can leave, and it is never refused. -/
theorem step_leaves_invKept (s : State) : Leaves s.InvKept (step s) := by
  have hadv : s.InvKept (s.advanced s.pcNat) := (State.CoreKept.setReg s _ _).invKept
  exact step_leaves (.refl s) hadv fun i _ => (exec_leaves_invKept i _).mono fun _ => hadv.trans

end InvKept

/-- Settles O47: every write a step can make keeps the canonical forms and the parameters. -/
theorem stepKeepsTheInvariant : Obligations.StepKeepsTheInvariant := fun s hs =>
  ⟨fun _ h => ((step_leaves_invKept s).next h).inv hs,
    fun _ _ h hf => ((step_leaves_invKept s).resume h hf).inv hs⟩

theorem step_ne_refused (s : State) (why : Refusal) : step s ≠ .refused why := by
  intro h
  have hstep := step_leaves_invKept s
  rwa [h] at hstep

/-- Settles O25: no arm of the dispatch refuses. -/
theorem stepNeverRefuses : Obligations.StepNeverRefuses := step_ne_refused

end Sys2Proof.Machine

/-! ### 16-bit accesses (R49 and R50 of spec/20_memory.md) -/

namespace Sys2Proof.Machine

/-- The little-endian word of two bytes, as the number R49 gives. -/
theorem wordOfBytes_eq_ofNat (lo hi : Byte) :
    wordOfBytes lo hi = BitVec.ofNat 16 (lo.toNat + 256 * hi.toNat) := by
  rw [← toNat_wordOfBytes, BitVec.ofNat_toNat, BitVec.setWidth_eq]

/-- The state with a word's two bytes at an address, low byte first: what a 16-bit write in range leaves. -/
def State.putWord (s : State) (k : Nat) (v : Word) : State :=
  (s.setByte k (lowByte v)).setByte (k + 1) (highByte v)

section PutWord

variable (s : State) (k q : Nat) (v : Word)

theorem State.sameControl_putWord : s.SameControl (s.putWord k v) := ⟨rfl, rfl, rfl, rfl⟩

@[simp] theorem State.byteAt_putWord : (s.putWord k v).byteAt q =
    if q = k + 1 then highByte v else if q = k then lowByte v else s.byteAt q := by
  simp [State.putWord]

theorem State.sameMemBut_putWord : s.SameMemBut (s.putWord k v) k := by
  intro q h0 h1
  rw [State.byteAt_putWord, if_neg (by omega), if_neg (by omega)]

@[simp] theorem State.wordAt_putWord_same : (s.putWord k v).wordAt k = v := by
  simp [State.wordAt]

/-- A word whose two bytes are not those written keeps its value. -/
theorem State.wordAt_putWord_of_disjoint (h : q + 2 ≤ k ∨ k + 2 ≤ q) :
    (s.putWord k v).wordAt q = s.wordAt q := by
  rw [State.wordAt, State.byteAt_putWord, if_neg (by omega), if_neg (by omega), State.byteAt_putWord,
    if_neg (by omega), if_neg (by omega), State.wordAt]

end PutWord

section WordAccess

variable {s t : State} {a : Int} {v : Word}

/-- Both addresses of a 16-bit access are in range where the second lies below MEM_SIZE. -/
theorem State.inRange_word (h0 : 0 ≤ a) (h1 : a + 1 < s.cfg.memSize) :
    s.inRange a = true ∧ s.inRange (a + 1) = true :=
  ⟨(s.inRange_iff a).2 (by omega), (s.inRange_iff (a + 1)).2 (by omega)⟩

/-- Only the first address of a 16-bit access is in range where it is the last of memory. -/
theorem State.inRange_lastByte (h0 : 0 ≤ a) (h1 : a + 1 = s.cfg.memSize) :
    s.inRange a = true ∧ s.inRange (a + 1) = false :=
  ⟨(s.inRange_iff a).2 (by omega), (s.inRange_eq_false_iff (a + 1)).2 (by omega)⟩

theorem State.read2_of_write2_ok (h : s.write2 a v = .ok t) : t.read2 a = .ok v := by
  obtain ⟨hlo, hhi⟩ := State.read_of_write2_ok h
  rw [State.read2, hlo]
  simp [hhi]

/-- A 16-bit write that succeeds changes its two bytes and nothing else. -/
theorem State.frame_of_write2_ok (h : s.write2 a v = .ok t) :
    s.SameMemBut t a ∧ t.regs = s.regs ∧ s.SameControl t := by
  obtain ⟨h0, -, rfl⟩ := State.write2_eq_ok.1 h
  obtain ⟨k, rfl⟩ := Int.eq_ofNat_of_zero_le ((s.inRange_iff a).1 h0).1
  exact ⟨s.sameMemBut_putWord k v, rfl, rfl, rfl, rfl, rfl⟩

/-- What a 16-bit write leaves whose second byte is out of range: its first byte is old or written, for each of
the two values of the draw, and nothing else but the count of draws changes. -/
theorem State.halfWritten_frame (s : State) (a : Int) (v : Word) :
    ((s.halfWritten a v).byteAt a.toNat = s.byteAt a.toNat ∨
      (s.halfWritten a v).byteAt a.toNat = lowByte v) ∧
    (∀ k, k ≠ a.toNat → (s.halfWritten a v).byteAt k = s.byteAt k) ∧
    (s.halfWritten a v).regs = s.regs ∧ (s.halfWritten a v).halt = s.halt ∧
    (s.halfWritten a v).table = s.table ∧ (s.halfWritten a v).cfg = s.cfg := by
  have hdraw : ∀ (u : State) k, u.nextDraw.byteAt k = u.byteAt k := fun _ _ => rfl
  rcases s.halfWritten_cases a v with e | e <;> rw [e]
  · exact ⟨.inl rfl, fun _ _ => rfl, rfl, rfl, rfl, rfl⟩
  · refine ⟨.inr ?_, fun k hk => ?_, rfl, rfl, rfl, rfl⟩
    · rw [hdraw, State.byteAt_setByte, if_pos rfl]
    · rw [hdraw, State.byteAt_setByte, if_neg hk]

end WordAccess

/-- Settles O14: each of the two addresses is checked as an integer. -/
theorem wordReadChecksBothBytes : Obligations.WordReadChecksBothBytes := by
  refine fun s a => ⟨fun h0 h1 => ?_, fun h => ?_, fun h0 h1 => ?_⟩
  · obtain ⟨hr0, hr1⟩ := State.inRange_word h0 h1
    have hnext : (a + 1).toNat = a.toNat + 1 := by omega
    exact State.read2_eq_ok.2 ⟨hr0, hr1, by rw [hnext, wordOfBytes_eq_ofNat]⟩
  · exact State.read2_eq_error.2 (.inl ⟨(s.inRange_eq_false_iff a).2 h, rfl⟩)
  · obtain ⟨hr0, hr1⟩ := State.inRange_lastByte h0 h1
    exact State.read2_eq_error.2 (.inr ⟨hr0, hr1, rfl⟩)

/-- Settles O15: a write in range sets both bytes, and one at the last byte of memory leaves
`State.halfWritten`. -/
theorem wordWriteThenRead : Obligations.WordWriteThenRead := by
  refine fun s a v => ⟨fun h0 h1 => ?_, fun h => ?_, fun h0 h1 => ?_⟩
  · obtain ⟨hr0, hr1⟩ := State.inRange_word h0 h1
    have hw := (State.write2_eq_ok (v := v)).2 ⟨hr0, hr1, rfl⟩
    exact ⟨_, hw, State.read2_of_write2_ok hw, State.frame_of_write2_ok hw⟩
  · exact State.write2_eq_error.2 (.inl ⟨(s.inRange_eq_false_iff a).2 h, rfl, rfl⟩)
  · obtain ⟨hr0, hr1⟩ := State.inRange_lastByte h0 h1
    obtain ⟨hbyte, hmem, hrest⟩ := s.halfWritten_frame a v
    exact ⟨_, State.write2_eq_error.2 (.inr ⟨hr0, hr1, rfl, rfl⟩), hbyte,
      fun k hk => hmem k (by omega), hrest⟩

end Sys2Proof.Machine

/-! ### Bulk operations (R51 and R52 of spec/20_memory.md) -/

namespace Sys2Proof.Machine

/-- The states agree in everything but the n bytes from `dst` on. -/
def State.SameBut (s t : State) (dst n : Nat) : Prop :=
  (∀ k, k < dst ∨ dst + n ≤ k → t.byteAt k = s.byteAt k) ∧ t.regs = s.regs ∧ s.SameControl t

section SameBut

variable {s t u : State} {dst n : Nat}

theorem State.SameBut.refl (s : State) (dst n : Nat) : s.SameBut s dst n :=
  ⟨fun _ _ => rfl, rfl, rfl, rfl, rfl, rfl⟩

theorem State.SameBut.setByte (h : s.SameBut t dst n) {k : Nat} (hk : dst ≤ k ∧ k < dst + n) (b : Byte) :
    s.SameBut (t.setByte k b) dst n := by
  obtain ⟨hmem, hregs, hctl⟩ := h
  refine ⟨fun q hq => ?_, hregs, hctl⟩
  rw [State.byteAt_setByte, if_neg (by omega), hmem q hq]

/-- A byte written before what a later operation changes. -/
theorem State.SameBut.of_setByte {b : Byte} (h : (s.setByte dst b).SameBut t (dst + 1) n) :
    s.SameBut t dst (n + 1) := by
  obtain ⟨hmem, hregs, hctl⟩ := h
  refine ⟨fun k hk => ?_, hregs, hctl⟩
  rw [hmem k (by omega), State.byteAt_setByte, if_neg (by omega)]

/-- What a failed bulk operation leaves agrees with the state before it but for its destination and the count
of draws (decision D27). -/
theorem State.smeared_frame (s : State) (dst n : Nat) :
    (∀ k, k < dst ∨ dst + n ≤ k → (s.smeared dst n).byteAt k = s.byteAt k) ∧
    (s.smeared dst n).regs = s.regs ∧ (s.smeared dst n).halt = s.halt ∧
    (s.smeared dst n).table = s.table ∧ (s.smeared dst n).cfg = s.cfg := by
  have hfrom : ∀ m, m ≤ n → s.SameBut (s.smearFrom s.draws dst m) dst n := by
    intro m
    induction m with
    | zero => exact fun _ => .refl s dst n
    | succ m ih =>
      intro hm
      have h := ih (by omega)
      rw [State.smearFrom]
      rcases (s.smearFrom s.draws dst m).poke_cases (dst + m : Nat) (Config.bulkByte s.draws m) with
        e | ⟨-, e⟩
      · rwa [← Nat.cast_add, e]
      · rw [← Nat.cast_add, e]
        exact h.setByte (by omega) _
  obtain ⟨hmem, hregs, hhalt, htable, hcfg, -⟩ := hfrom n le_rfl
  exact ⟨hmem, hregs, hhalt, htable, hcfg⟩

end SameBut

section Copy

variable {s t : State} {src dst n : Nat}

/-- One byte of a copy whose two addresses are in range. -/
theorem State.copyForward_succ (hsrc : src < s.cfg.memSize) (hdst : dst < s.cfg.memSize) :
    s.copyForward src dst (n + 1) =
      (s.setByte dst (s.byteAt src)).copyForward ((src + 1 : Nat) : Int) ((dst + 1 : Nat) : Int) n := by
  have hread : s.read src = some (s.byteAt src) :=
    State.read_eq_some.2 ⟨(s.inRange_iff _).2 (by omega), rfl⟩
  have hwrite : s.write dst (s.byteAt src) = some (s.setByte dst (s.byteAt src)) :=
    State.write_eq_some.2 ⟨(s.inRange_iff _).2 (by omega), rfl⟩
  rw [State.copyForward, hread]
  simp only [hwrite]
  rfl

/-- A copy whose addresses are all in range completes and changes nothing but its destination. -/
theorem State.exists_copyForward (hsrc : src + n ≤ s.cfg.memSize) (hdst : dst + n ≤ s.cfg.memSize) :
    ∃ t, s.copyForward src dst n = .ok t ∧ s.SameBut t dst n := by
  induction n generalizing s src dst with
  | zero => exact ⟨s, rfl, .refl s dst 0⟩
  | succ n ih =>
    obtain ⟨t, ht, hsame⟩ := ih (s := s.setByte dst (s.byteAt src)) (src := src + 1) (dst := dst + 1)
      (by rw [State.setByte_cfg]; omega) (by rw [State.setByte_cfg]; omega)
    exact ⟨t, (State.copyForward_succ (by omega) (by omega)).trans ht, hsame.of_setByte⟩

/-- The offset below the source that byte j of a copy reads: an overlapping copy upward reads again what it has
written, with the distance as its period. -/
def copyOffset (src dst j : Nat) : Nat := if src < dst then j % (dst - src) else j

theorem copyOffset_zero (src dst : Nat) : copyOffset src dst 0 = 0 := by simp [copyOffset]

/-- The next offset is the next address, but where the copy has come to its own destination. -/
theorem copyOffset_succ (src dst j : Nat) :
    (src + 1 + copyOffset src dst j = dst ∧ copyOffset src dst (j + 1) = 0) ∨
    (src + 1 + copyOffset src dst j ≠ dst ∧
      copyOffset src dst (j + 1) = copyOffset src dst j + 1) := by
  unfold copyOffset
  split
  · next hlt =>
    have hmod := Nat.mod_lt j (Nat.sub_pos_of_lt hlt)
    rw [← Nat.mod_add_mod j (dst - src) 1]
    by_cases hlast : j % (dst - src) + 1 = dst - src
    · exact .inl ⟨by omega, by rw [hlast, Nat.mod_self]⟩
    · exact .inr ⟨by omega, Nat.mod_eq_of_lt (by omega)⟩
  · exact .inr ⟨by omega, rfl⟩

theorem copyOffset_shift (src dst j : Nat) : copyOffset (src + 1) (dst + 1) j = copyOffset src dst j := by
  simp [copyOffset]

/-- Byte j of a copy is the byte of the source at its offset (R51). -/
theorem State.byteAt_copyForward {j : Nat} (hsrc : src + n ≤ s.cfg.memSize)
    (hdst : dst + n ≤ s.cfg.memSize) (h : s.copyForward src dst n = .ok t) (hj : j < n) :
    t.byteAt (dst + j) = s.byteAt (src + copyOffset src dst j) := by
  induction n generalizing s src dst j with
  | zero => omega
  | succ n ih =>
    have hsrc' : src + 1 + n ≤ (s.setByte dst (s.byteAt src)).cfg.memSize := by
      rw [State.setByte_cfg]; omega
    have hdst' : dst + 1 + n ≤ (s.setByte dst (s.byteAt src)).cfg.memSize := by
      rw [State.setByte_cfg]; omega
    rw [State.copyForward_succ (by omega) (by omega)] at h
    cases j with
    | zero =>
      obtain ⟨u, hu, hmem, -⟩ := State.exists_copyForward hsrc' hdst'
      obtain rfl : t = u := Except.ok.inj (h.symm.trans hu)
      rw [copyOffset_zero, hmem _ (by omega)]
      simp
    | succ j =>
      have hbyte := ih hsrc' hdst' h (Nat.lt_of_succ_lt_succ hj)
      rw [copyOffset_shift, State.byteAt_setByte] at hbyte
      rw [show dst + (j + 1) = dst + 1 + j by omega, hbyte]
      rcases copyOffset_succ src dst j with ⟨hend, hnext⟩ | ⟨hend, hnext⟩
      · rw [if_pos hend, hnext, Nat.add_zero]
      · rw [if_neg hend, hnext, Nat.add_right_comm, Nat.add_assoc]

/-- The first address out of range that a copy meets: the source where the source is out of range, else the
higher of the destination and MEM_SIZE (R51). -/
theorem State.copyForward_eq_error (hn : 0 < n) (h : s.cfg.memSize < max src dst + n) :
    s.copyForward src dst n =
      .error (if s.cfg.memSize ≤ src then (src : Int) else ((max dst s.cfg.memSize : Nat) : Int)) := by
  induction n generalizing s src dst with
  | zero => omega
  | succ n ih =>
    by_cases hsrc : s.cfg.memSize ≤ src
    · have hread : s.read src = none :=
        State.read_eq_none.2 ((s.inRange_eq_false_iff _).2 (by omega))
      rw [State.copyForward, hread, if_pos hsrc]
    · have hread : s.read src = some (s.byteAt src) :=
        State.read_eq_some.2 ⟨(s.inRange_iff _).2 (by omega), rfl⟩
      by_cases hdst : s.cfg.memSize ≤ dst
      · have hwrite : s.write dst (s.byteAt src) = none :=
          State.write_eq_none.2 ((s.inRange_eq_false_iff _).2 (by omega))
        rw [State.copyForward, hread, if_neg hsrc, max_eq_left hdst]
        simp only [hwrite]
      · rw [State.copyForward_succ (by omega) (by omega), ih (by omega) (by
          rw [State.setByte_cfg]; omega), State.setByte_cfg]
        congr 1
        split <;> omega

/-- The first address out of range that a list of bytes meets (R52). -/
theorem State.writeBytes_eq_error {bytes : List Byte} (hne : bytes ≠ [])
    (h : s.cfg.memSize < dst + bytes.length) :
    s.writeBytes dst bytes = .error ((max dst s.cfg.memSize : Nat) : Int) := by
  induction bytes generalizing s dst with
  | nil => exact absurd rfl hne
  | cons b rest ih =>
    rw [List.length_cons] at h
    by_cases hdst : s.cfg.memSize ≤ dst
    · have hwrite : s.write dst b = none :=
        State.write_eq_none.2 ((s.inRange_eq_false_iff _).2 (by omega))
      rw [State.writeBytes, hwrite, max_eq_left hdst]
    · have hwrite : s.write dst b = some (s.setByte dst b) :=
        State.write_eq_some.2 ⟨(s.inRange_iff _).2 (by omega), rfl⟩
      have hrest : rest ≠ [] := by rintro rfl; simp at h; omega
      have htail := ih (s := s.setByte dst b) (dst := dst + 1) hrest (by rw [State.setByte_cfg]; omega)
      rw [State.setByte_cfg, max_eq_right (by omega)] at htail
      rw [State.writeBytes, hwrite, max_eq_right (by omega)]
      exact htail

end Copy

/-- Settles O17: each byte copied is written before the next one is read. -/
theorem copyRunsForward : Obligations.CopyRunsForward := by
  intro s src dst n hsrc hdst
  obtain ⟨t, ht, hmem, hregs, hctl⟩ := State.exists_copyForward hsrc hdst
  exact ⟨t, by rw [State.copy, ht], fun j => State.byteAt_copyForward hsrc hdst ht, hmem, hregs, hctl⟩

/-- Settles O18: the loop stops at the first address out of range, and the draw then rewrites the destination
alone. -/
theorem bulkOperationsFailSoftly : Obligations.BulkOperationsFailSoftly := by
  refine ⟨fun s src dst n hn h => ⟨_, ?_, s.smeared_frame dst n⟩,
    fun s bytes base hne h => ⟨_, ?_, s.smeared_frame base bytes.length⟩⟩
  · rw [State.copy, State.copyForward_eq_error hn h]
  · rw [State.loadImage, State.writeBytes_eq_error hne h]

end Sys2Proof.Machine

/-! ### Stack instructions (spec/41_stack.md) -/

namespace Sys2Proof.Machine

/-! #### Registers around SP -/

section StackPointer

variable (s : State) {n : Nat}

theorem State.spNat_setSpNat (h : n ≤ 0xFFFF) : (s.setSpNat n).spNat = n := by
  rw [State.spNat, State.getReg_setSpNat, if_pos rfl, BitVec.toNat_ofNat]
  omega

theorem State.spNat_lt : s.spNat < 65536 := (s.getReg .sp).isLt

theorem State.sameRegsBut_setSpNat (n : Nat) : s.SameRegsBut (s.setSpNat n) [.sp] :=
  s.sameRegsBut_setReg .sp _

@[simp] theorem State.wordAt_setSpNat (n k : Nat) : (s.setSpNat n).wordAt k = s.wordAt k := rfl

end StackPointer

/-! #### Pushes (R125, R135) -/

/-- What a push that completes leaves: the word at the old SP, and SP two higher. -/
def State.pushed (s : State) (v : Word) : State := (s.putWord s.spNat v).setSpNat (s.spNat + 2)

section Push

variable {s t : State} {i : Instr} {v : Word}

/-- Either push instruction pushes its value. -/
theorem exec_of_isPush (hi : i.isPush = true) (s : State) :
    exec i s = pushWord (pushedValue s i) s := by
  cases i with
  | push v => rfl
  | pushRegister r => rfl
  | nop | popRegister _ | addStack | addRegister _ _ | signal _ => cases hi

/-- A push completes exactly where SP + 2 fits in 16 bits and memory backs both bytes of the slot. -/
theorem pushWord_eq_next :
    pushWord v s = .next t ↔ (s.spNat + 2 ≤ 0xFFFF ∧ s.spNat + 1 < s.cfg.memSize) ∧ s.pushed v = t := by
  rcases pushWord_cases v s with ⟨ho, -, hr, e⟩ | ⟨ho, e⟩ | ⟨-, hr, e⟩ | ⟨-, -, hr, e⟩ <;> rw [e]
  · rw [State.inRange_iff] at hr
    exact ⟨fun h => ⟨⟨ho, by omega⟩, Host.Outcome.next.inj h⟩, fun h => congrArg _ h.2⟩
  · exact ⟨nofun, fun h => by omega⟩
  · rw [State.inRange_eq_false_iff] at hr
    exact ⟨nofun, fun h => by omega⟩
  · rw [State.inRange_eq_false_iff] at hr
    exact ⟨nofun, fun h => by omega⟩

theorem State.spNat_pushed (v : Word) (h : s.spNat + 2 ≤ 0xFFFF) :
    (s.pushed v).spNat = s.spNat + 2 := State.spNat_setSpNat _ h

@[simp] theorem State.pushed_cfg (s : State) (v : Word) : (s.pushed v).cfg = s.cfg := rfl

@[simp] theorem State.byteAt_pushed (s : State) (v : Word) (k : Nat) :
    (s.pushed v).byteAt k = (s.putWord s.spNat v).byteAt k := rfl

@[simp] theorem State.wordAt_pushed (s : State) (v : Word) (k : Nat) :
    (s.pushed v).wordAt k = (s.putWord s.spNat v).wordAt k := rfl

/-- A push that completes changes SP and the two bytes at the old SP. -/
theorem State.pushed_frame (s : State) (v : Word) :
    s.SameRegsBut (s.pushed v) [.sp] ∧ s.SameMemBut (s.pushed v) s.spNat ∧ s.SameControl (s.pushed v) :=
  ⟨(s.putWord s.spNat v).sameRegsBut_setSpNat _, s.sameMemBut_putWord s.spNat v,
    s.sameControl_putWord s.spNat v⟩

/-- A push whose write fails faults as the write does. -/
theorem pushWord_of_write2_error {addr : Int} (hsp : s.spNat + 2 ≤ 0xFFFF)
    (hw : s.write2 s.spNat v = .error (addr, t)) : pushWord v s = t.raise (.memoryFault addr) := by
  simp only [pushWord, if_neg (Nat.not_lt.2 hsp), hw]

theorem pushWord_of_overflow (v : Word) (hsp : 0xFFFF < s.spNat + 2) :
    pushWord v s = s.raise (.memoryFault ((s.spNat : Int) + 2)) := by
  simp [pushWord, hsp]

end Push

theorem zext16_eq (v : Byte) : zext16 v = wordOfBytes v 0#8 :=
  BitVec.eq_of_toNat_eq (by rw [toNat_zext16, toNat_wordOfBytes]; rfl)

/-- Settles O27: the bytes of a zero-extended immediate are the immediate and 0. -/
theorem pushStoresTheImmediate : Obligations.PushStoresTheImmediate := by
  intro s v hsp hmem
  exact ⟨s.pushed (zext16 v), pushWord_eq_next.2 ⟨⟨hsp, hmem⟩, rfl⟩, by simp [zext16_eq],
    by simp [zext16_eq], State.spNat_pushed _ hsp, s.pushed_frame _⟩

/-- Settles O28: the value pushed is read before SP is written. -/
theorem pushRegisterStoresTheRegister : Obligations.PushRegisterStoresTheRegister := by
  intro s r hsp hmem
  exact ⟨s.pushed (s.getReg r), pushWord_eq_next.2 ⟨⟨hsp, hmem⟩, rfl⟩, by simp, by simp,
    State.spNat_pushed _ hsp, s.pushed_frame _⟩

/-- Settles O29: a push checks SP + 2 and then fails where its 16-bit write at SP does. -/
theorem pushFaultsLeaveSpUnchanged : Obligations.PushFaultsLeaveSpUnchanged := by
  intro s i hi
  rw [exec_of_isPush hi]
  obtain ⟨-, hfirst, hsecond⟩ := wordWriteThenRead s s.spNat (pushedValue s i)
  refine ⟨pushWord_of_overflow _, fun hsp hmem => ?_, fun hsp hmem => ?_⟩
  · exact pushWord_of_write2_error hsp (hfirst (.inr (by omega)))
  · obtain ⟨left, hw, hbyte, hrest, hregs⟩ := hsecond (by omega) (by omega)
    exact ⟨left, pushWord_of_write2_error hsp hw, hbyte, fun k hk => hrest k (by omega), hregs⟩

/-- Settles O39: the one state that a push can leave on success is `State.pushed`. -/
theorem pushFrame : Obligations.PushFrame := by
  intro s t i hi h
  rw [exec_of_isPush hi, pushWord_eq_next] at h
  obtain ⟨-, rfl⟩ := h
  exact s.pushed_frame _

/-! #### Pops (R130) -/

section Pop

variable {s t : State} {top : Nat} {r : Reg}

/-- The slot below a stack pointer in memory is the word two bytes lower. -/
theorem slotBelow_of_le (h2 : 2 ≤ top) (hmem : top ≤ s.cfg.memSize) :
    slotBelow s top = .ok (s.wordAt (top - 2)) := by
  have hnext : top - 2 + 1 = top - 1 := by omega
  exact slotBelow_eq_ok.2 ⟨h2, (s.inRange_iff _).2 (by omega), by rw [State.wordAt, hnext]⟩

/-- Where the slot below a stack pointer cannot be read, and the address that says so. -/
theorem slotBelow_faults (s : State) (top : Nat) :
    (top < 2 → slotBelow s top = .error ((top : Int) - 2)) ∧
    (2 ≤ top → s.cfg.memSize + 2 ≤ top → slotBelow s top = .error ((top : Int) - 2)) ∧
    (2 ≤ top → top = s.cfg.memSize + 1 → slotBelow s top = .error ((top : Int) - 1)) := by
  refine ⟨fun h => slotBelow_eq_error.2 (.inl ⟨h, rfl⟩),
    fun h2 h => slotBelow_eq_error.2 (.inr (.inl ⟨h2, ?_, rfl⟩)),
    fun h2 h => slotBelow_eq_error.2 (.inr (.inr ⟨h2, ?_, ?_, rfl⟩))⟩
  · exact (s.inRange_eq_false_iff _).2 (by omega)
  · exact (s.inRange_iff _).2 (by omega)
  · exact (s.inRange_eq_false_iff _).2 (by omega)

theorem execPopRegister_of_slot {v : Word} (r : Reg) (h : slotBelow s s.spNat = .ok v) :
    execPopRegister r s = .next ((s.setSpNat (s.spNat - 2)).setReg r v) := by
  simp only [execPopRegister, h]

theorem execPopRegister_of_no_slot {bad : Int} (r : Reg) (h : slotBelow s s.spNat = .error bad) :
    execPopRegister r s = s.raise (.memoryFault bad) := by
  simp only [execPopRegister, h]

/-- A pop changes no register but SP and the one it names. -/
theorem State.sameRegsBut_setSpNat_setReg (s : State) (n : Nat) (r : Reg) (v : Word) :
    s.SameRegsBut ((s.setSpNat n).setReg r v) [.sp, r] := by
  intro q hq
  simp only [List.mem_cons, List.not_mem_nil, or_false, not_or] at hq
  rw [State.getReg_setReg, if_neg hq.2, State.getReg_setSpNat, if_neg hq.1]

end Pop

/-- Settles O30: SP is written before the register, so the popped value stands in the register, SP included. -/
theorem popRegisterLoadsTheTopSlot : Obligations.PopRegisterLoadsTheTopSlot := by
  intro s r h2 hmem
  refine ⟨_, execPopRegister_of_slot r (slotBelow_of_le h2 hmem), by simp, fun hr => ?_,
    s.sameRegsBut_setSpNat_setReg _ _ _, rfl, rfl, rfl, rfl, rfl⟩
  have := s.spNat_lt
  rw [State.spNat_setReg _ _ hr, State.spNat_setSpNat _ (by omega)]

/-- Settles O31: a pop faults where the slot below SP cannot be read. -/
theorem popRegisterFaultsChangeNothing : Obligations.PopRegisterFaultsChangeNothing := by
  intro s r
  obtain ⟨hlow, hhigh, hlast⟩ := slotBelow_faults s s.spNat
  exact ⟨fun h => execPopRegister_of_no_slot r (hlow h),
    fun h2 h => execPopRegister_of_no_slot r (hhigh h2 h),
    fun h2 h => execPopRegister_of_no_slot r (hlast h2 h)⟩

/-- Settles O40: a pop that completes writes two registers. -/
theorem popRegisterFrame : Obligations.PopRegisterFrame := by
  intro s t r h
  change execPopRegister r s = .next t at h
  rcases execPopRegister_cases r s with ⟨v, -, e⟩ | ⟨_, -, e⟩ <;> rw [e] at h
  · cases h
    exact ⟨s.sameRegsBut_setSpNat_setReg _ _ _, fun _ => rfl, rfl, rfl, rfl, rfl⟩
  · cases h

/-! #### `AddStack` (R140) -/

section AddStack

variable {s t : State}

/-- What an `AddStack` that completes leaves: the sum of the two top slots four bytes below the old SP, and SP
two lower. -/
def State.summed (s : State) : State :=
  (s.putWord (s.spNat - 4) (add16 (s.wordAt (s.spNat - 2)) (s.wordAt (s.spNat - 4)))).setSpNat
    (s.spNat - 2)

theorem execAddStack_of_le (h4 : 4 ≤ s.spNat) (hmem : s.spNat ≤ s.cfg.memSize) :
    execAddStack s = .next s.summed := by
  have hsecond : s.spNat - 2 - 2 = s.spNat - 4 := by omega
  have hhigh : s.spNat - 4 + 1 = s.spNat - 3 := by omega
  rw [execAddStack_ok (slotBelow_of_le (by omega) hmem) (slotBelow_of_le (by omega) (by omega)),
    State.summed, State.putWord, hsecond, hhigh]

/-- `AddStack` completes exactly where both slots below SP lie in memory. -/
theorem execAddStack_eq_next :
    execAddStack s = .next t ↔ (4 ≤ s.spNat ∧ s.spNat ≤ s.cfg.memSize) ∧ s.summed = t := by
  refine ⟨fun h => ?_, fun ⟨hsp, ht⟩ => ht ▸ execAddStack_of_le hsp.1 hsp.2⟩
  have hsp : 4 ≤ s.spNat ∧ s.spNat ≤ s.cfg.memSize := by
    rcases execAddStack_cases s with ⟨a, b, ha, hb, -⟩ | ⟨_, -, e⟩ | ⟨_, _, -, -, e⟩
    · obtain ⟨-, hr, -⟩ := slotBelow_eq_ok.1 ha
      obtain ⟨h2, -⟩ := slotBelow_eq_ok.1 hb
      rw [State.inRange_iff] at hr
      omega
    · rw [e] at h; cases h
    · rw [e] at h; cases h
  exact ⟨hsp, Host.Outcome.next.inj ((execAddStack_of_le hsp.1 hsp.2).symm.trans h)⟩

/-- An `AddStack` that completes changes SP and the word four bytes below the old SP. -/
theorem State.summed_frame (h4 : 4 ≤ s.spNat) :
    s.SameRegsBut s.summed [.sp] ∧ s.SameMemBut s.summed ((s.spNat : Int) - 4) ∧
      s.SameControl s.summed := by
  have haddr : (s.spNat : Int) - 4 = ((s.spNat - 4 : Nat) : Int) := by omega
  rw [haddr]
  exact ⟨State.sameRegsBut_setSpNat _ _, s.sameMemBut_putWord _ _, rfl, rfl, rfl, rfl⟩

theorem execAddStack_of_no_slot {bad : Int} (h : slotBelow s s.spNat = .error bad) :
    execAddStack s = s.raise (.memoryFault bad) := by
  simp only [execAddStack, h]

theorem execAddStack_of_no_second_slot {a : Word} {bad : Int} (ha : slotBelow s s.spNat = .ok a)
    (hb : slotBelow s (s.spNat - 2) = .error bad) :
    execAddStack s = (s.halfPopped s.spNat).raise (.memoryFault bad) := by
  simp only [execAddStack, ha, hb]

/-- What a failed second pop leaves: SP kept or decremented, for each of the two values of the draw, and nothing
else but the count of draws changed. -/
theorem State.halfPopped_frame (s : State) :
    ((s.halfPopped s.spNat).spNat = s.spNat ∨ (s.halfPopped s.spNat).spNat = s.spNat - 2) ∧
    s.SameRegsBut (s.halfPopped s.spNat) [.sp] ∧ (s.halfPopped s.spNat).mem = s.mem ∧
    (s.halfPopped s.spNat).halt = s.halt ∧ (s.halfPopped s.spNat).table = s.table ∧
    (s.halfPopped s.spNat).cfg = s.cfg := by
  have := s.spNat_lt
  rcases s.halfPopped_cases s.spNat with e | e <;> rw [e]
  · exact ⟨.inl rfl, fun _ _ => rfl, rfl, rfl, rfl, rfl⟩
  · exact ⟨.inr (s.spNat_setSpNat (by omega)), s.sameRegsBut_setSpNat _, rfl, rfl, rfl, rfl⟩

/-- The second pop alone fails only where SP is 2 or 3. -/
theorem spNat_of_second_slot_error {a : Word} {bad : Int} (ha : slotBelow s s.spNat = .ok a)
    (hb : slotBelow s (s.spNat - 2) = .error bad) : s.spNat = 2 ∨ s.spNat = 3 := by
  obtain ⟨h2, hr, -⟩ := slotBelow_eq_ok.1 ha
  rw [State.inRange_iff] at hr
  by_contra hsp
  rw [slotBelow_of_le (by omega) (by omega)] at hb
  cases hb

end AddStack

/-- Settles O32: both slots are read before the sum is written to the lower one. -/
theorem addStackAddsTheTopTwoSlots : Obligations.AddStackAddsTheTopTwoSlots := by
  intro s h4 hmem
  have := s.spNat_lt
  refine ⟨s.summed, execAddStack_of_le h4 hmem, ?_, ?_, s.putWord _ _ |>.spNat_setSpNat (by omega),
    State.summed_frame h4⟩
  · rw [State.summed, State.wordAt_setSpNat, State.wordAt_putWord_same, toNat_add16]
  · rw [State.summed, State.wordAt_setSpNat, State.wordAt_putWord_of_disjoint _ _ _ _ (by omega)]

/-- Settles O33: either slot can be one that cannot be read, and the second alone only at SP = 2 or 3. -/
theorem addStackFaults : Obligations.AddStackFaults := by
  intro s
  obtain ⟨hlow, hhigh, hlast⟩ := slotBelow_faults s s.spNat
  refine ⟨fun h => execAddStack_of_no_slot (hlow h), fun h2 h => execAddStack_of_no_slot (hhigh h2 h),
    fun h2 h => execAddStack_of_no_slot (hlast h2 h), fun hsp hmem => ?_, fun why left h => ?_⟩
  · have hsecond : slotBelow s (s.spNat - 2) = .error ((s.spNat : Int) - 4) := by
      rw [(slotBelow_faults s (s.spNat - 2)).1 (by omega)]
      congr 1
      omega
    refine ⟨s.halfPopped s.spNat, ?_, s.halfPopped_frame⟩
    exact execAddStack_of_no_second_slot (slotBelow_of_le (by omega) hmem) hsecond
  · change execAddStack s = .fault (.failed why left) at h
    rcases execAddStack_cases s with ⟨_, _, -, -, e⟩ | ⟨_, -, e⟩ | ⟨_, _, ha, hb, -⟩
    · rw [e] at h; cases h
    · rw [e] at h; cases h; exact .inl rfl
    · exact .inr (spNat_of_second_slot_error ha hb)

/-- Settles O41: the one state that `AddStack` can leave on success is `State.summed`. -/
theorem addStackFrame : Obligations.AddStackFrame := by
  intro s t h
  obtain ⟨⟨h4, -⟩, rfl⟩ := execAddStack_eq_next.1 h
  exact State.summed_frame h4

end Sys2Proof.Machine

/-! ### Fetch, advance and transfer of control (spec/40_dispatch.md) -/

namespace Sys2Proof.Machine

section Fetch

variable {s u : State} {w : Word} {i : Instr}

/-- A fetch that cannot read its word faults with the state unchanged (R111). -/
theorem fetch_of_read2_error {bad : Int} (hr : s.read2 s.pcNat = .error bad) :
    fetch s = .error (.failed (.memoryFault bad) s) := by
  simp only [fetch, hr]

/-- The advance past 0xFFFF faults with the state unchanged (R112; decision D6). -/
theorem fetch_of_overflow (hr : s.read2 s.pcNat = .ok w) (hpc : 0xFFFF < s.pcNat + 2) :
    fetch s = .error (.failed (.memoryFault ((s.pcNat + 2 : Nat) : Int)) s) := by
  simp only [fetch, hr, if_pos hpc]

/-- A word that does not decode faults with the advance made (R113). -/
theorem fetch_of_decode_error {why : DecodeFault} (hr : s.read2 s.pcNat = .ok w)
    (hpc : s.pcNat + 2 ≤ 0xFFFF) (hd : decode s.cfg w = .error why) :
    fetch s = .error (.failed (.decodeFault why) (s.advanced s.pcNat)) := by
  simp only [fetch, hr, if_neg (Nat.not_lt.2 hpc), hd]

theorem fetch_of_decode_ok (hr : s.read2 s.pcNat = .ok w) (hpc : s.pcNat + 2 ≤ 0xFFFF)
    (hd : decode s.cfg w = .ok i) : fetch s = .ok (i, s.advanced s.pcNat) := by
  simp only [fetch, hr, if_neg (Nat.not_lt.2 hpc), hd]

theorem step_of_fetch_error {f : Fault} (h : fetch s = .error f) : step s = .fault f := by
  rw [step, h]

@[simp] theorem State.spNat_advanced (a : Nat) : (s.advanced a).spNat = s.spNat := by
  simp [State.spNat]

@[simp] theorem State.wordAt_advanced (a k : Nat) : (s.advanced a).wordAt k = s.wordAt k := rfl

end Fetch

/-- Settles O20: the fetch of a word that decodes answers its instruction and the advanced state. -/
theorem stepRunsTheDecodedInstruction : Obligations.StepRunsTheDecodedInstruction := by
  intro s w i hr hpc hd
  have hf := fetch_of_decode_ok hr hpc hd
  exact ⟨hf, step_of_fetch_ok hf, State.pcNat_advanced hpc, s.sameRegsBut_advanced _,
    State.advanced_mem _ _, s.sameControl_advanced _⟩

/-- Settles O21: each fault is the one the 16-bit read at PC, or the check of the advance, gives. -/
theorem faultsBeforeTheAdvanceChangeNothing : Obligations.FaultsBeforeTheAdvanceChangeNothing := by
  intro s
  obtain ⟨hok, hfirst, hsecond⟩ := wordReadChecksBothBytes s s.pcNat
  refine ⟨fun h => step_of_fetch_error (fetch_of_read2_error (hfirst (.inr (by omega)))),
    fun h => step_of_fetch_error (fetch_of_read2_error (hsecond (by omega) (by omega))),
    fun hpc hsize => ?_⟩
  have hf := fetch_of_overflow (hok (by omega) (by omega)) (by omega)
  rw [hpc] at hf
  exact step_of_fetch_error hf

/-- Settles O22: the decode fault leaves the advanced state. -/
theorem decodeFaultKeepsTheAdvance : Obligations.DecodeFaultKeepsTheAdvance := by
  intro s w why hr hpc hd
  exact ⟨_, step_of_fetch_error (fetch_of_decode_error hr hpc hd), State.pcNat_advanced hpc,
    s.sameRegsBut_advanced _, State.advanced_mem _ _, s.sameControl_advanced _⟩

theorem callsHost_of_isSignal_eq_false {i : Instr} (s : State) (hi : i.isSignal = false) :
    s.callsHost i = false := by
  cases i with
  | signal id => cases hi
  | nop | push _ | popRegister _ | pushRegister _ | addStack | addRegister _ _ => rfl

/-- Settles O23: PC is a register like any other after the advance, and one that is not written keeps its
value. -/
theorem sequentialFlow : Obligations.SequentialFlow := by
  intro s t u i hf hi hw h
  obtain ⟨hpc, rfl⟩ := fetch_eq_ok_advanced hf
  rw [step_of_fetch_ok hf] at h
  have hkept := getReg_of_exec_next (by decide) (callsHost_of_isSignal_eq_false _ hi) hw h
  exact (congrArg BitVec.toNat hkept).trans (State.pcNat_advanced hpc)

/-- Settles O24: both instructions run on the advanced state, in which PC reads as the next word's address. -/
theorem pcWritesTransferControl : Obligations.PcWritesTransferControl := by
  refine ⟨fun s u r hf => ?_, fun s u hf h2 hmem => ?_⟩
  · obtain ⟨hpc, rfl⟩ := fetch_eq_ok_advanced hf
    have hadv := State.pcNat_advanced (s := s) hpc
    refine ⟨_, (step_of_fetch_ok hf).trans (exec_addRegister _ _ _), ?_⟩
    rw [State.pcNat, State.getReg_setReg, if_pos rfl, toNat_add16, ← State.pcNat, hadv]
    by_cases hr : r = .pc
    · rw [if_pos hr, hr, ← State.pcNat, hadv]
    · rw [if_neg hr, State.getReg_advanced, if_neg hr]
  · obtain ⟨-, rfl⟩ := fetch_eq_ok_advanced hf
    obtain ⟨t, ht, hword, -⟩ := popRegisterLoadsTheTopSlot (s.advanced s.pcNat) .pc (by simpa) (by simpa)
    exact ⟨t, (step_of_fetch_ok hf).trans ht, by simpa using hword⟩

end Sys2Proof.Machine

/-! ### `Signal` and the writes of a handler (spec/43_signal.md) -/

namespace Sys2Proof.Machine

section Signal

variable {s t : State} {id : Byte}

/-- The halt handler's one outcome is success with halt set (R163). -/
theorem exec_signal_of_halt (h : s.entry id = some .halt) : exec (.signal id) s = .next (s.setHalt true) := by
  rcases execSignal_cases id s with ⟨he, -⟩ | ⟨-, e⟩ | ⟨_, he, -⟩ | ⟨_, _, he, -⟩
  · rw [h] at he; cases he
  · exact e
  · rw [h] at he; cases he
  · rw [h] at he; cases he

end Signal

/-- Settles O35: the halt handler sets one flag. -/
theorem signalWithHaltHandlerSetsHalt : Obligations.SignalWithHaltHandlerSetsHalt :=
  fun _ _ h => ⟨_, exec_signal_of_halt h, rfl, rfl, rfl, rfl, rfl, rfl⟩

/-- Settles O36: the entry decides whether there is a handler, and the handler's outcome decides the rest. -/
theorem signalFollowsTheTableEntry : Obligations.SignalFollowsTheTableEntry := by
  intro s id
  refine ⟨fun h => ?_, fun n h => ?_⟩
  · rw [exec, execSignal, h]; rfl
  · rw [exec, execSignal, h]
    simp only [callHandler]
    cases Config.hostHandler n s with
    | none => rfl
    | some o => rfl

/-! #### What the writes of a handler leave (R161) -/

theorem State.afterActions_append (s : State) (acts more : List HandlerAction) :
    s.afterActions (acts ++ more) = (s.afterActions acts).afterActions more := List.foldl_append

theorem HandlerAction.apply_draws (s : State) (x : HandlerAction) :
    (HandlerAction.apply s x).draws = s.draws := by
  cases x with
  | setReg r v => rfl
  | write addr v =>
    rcases s.poke_cases addr.toNat v with e | ⟨-, e⟩ <;> rw [HandlerAction.apply, e]
    rfl
  | setHalt b => rfl
  | setEntry id e => rfl

theorem State.afterActions_cfg (s : State) (acts : List HandlerAction) :
    (s.afterActions acts).cfg = s.cfg := (s.afterActions_kept acts).1.1

theorem State.afterActions_draws (s : State) (acts : List HandlerAction) :
    (s.afterActions acts).draws = s.draws := by
  induction acts generalizing s with
  | nil => rfl
  | cons x rest ih => exact (ih _).trans (HandlerAction.apply_draws s x)

/-- A handler's write out of range changes nothing (R48; log 9). -/
theorem HandlerAction.apply_write_of_outOfRange {s : State} {a : Word} (h : s.cfg.memSize ≤ a.toNat)
    (v : Byte) : HandlerAction.apply s (.write a v) = s := by
  have hr : s.inRange a.toNat = false := (s.inRange_eq_false_iff _).2 (.inr (by exact_mod_cast h))
  rw [HandlerAction.apply, State.poke, State.write_eq_none.2 hr, Option.getD_none]

theorem HandlerAction.apply_write_of_lt {s : State} {a : Word} (h : a.toNat < s.cfg.memSize) (v : Byte) :
    HandlerAction.apply s (.write a v) = s.setByte a.toNat v := by
  have hr : s.inRange a.toNat = true := (s.inRange_iff _).2 (by omega)
  rw [HandlerAction.apply, State.poke, State.write_eq_some.2 ⟨hr, rfl⟩, Option.getD_some, Int.toNat_natCast]

/-- Settles O42: the halt handler sets one flag, and no write of a handler reaches the parameters or the count
of draws. -/
theorem signalFrame : Obligations.SignalFrame := by
  refine ⟨fun s t id h hexec => ?_, fun s acts => ⟨s.afterActions_cfg acts, s.afterActions_draws acts⟩,
    fun s a v h => HandlerAction.apply_write_of_outOfRange h v⟩
  rw [exec_signal_of_halt h] at hexec
  cases hexec
  exact ⟨fun _ _ => rfl, fun _ => rfl, rfl, rfl, rfl⟩

/-! #### The writes that lead to a given state -/

/-- Writes of the first n bytes of memory, as they are in t. -/
def byteWrites (t : State) (n : Nat) : List HandlerAction :=
  (List.range n).map fun k => .write (BitVec.ofNat 16 k) (t.byteAt k)

/-- Settings of the first n entries of the handler table, as they are in t. -/
def entryWrites (t : State) (n : Nat) : List HandlerAction :=
  (List.range n).map fun k => .setEntry (BitVec.ofNat 8 k) (t.entry (BitVec.ofNat 8 k))

/-- Settings of the eight registers and of halt, as they are in t. -/
def registerWrites (t : State) : List HandlerAction :=
  Reg.all.map (fun r => .setReg r (t.getReg r)) ++ [.setHalt t.halt]

section Reach

variable (s t : State)

theorem State.afterActions_byteWrites_succ (n : Nat) :
    s.afterActions (byteWrites t (n + 1)) =
      HandlerAction.apply (s.afterActions (byteWrites t n)) (.write (BitVec.ofNat 16 n) (t.byteAt n)) := by
  rw [byteWrites, List.range_succ, List.map_append, State.afterActions_append]
  rfl

theorem State.afterActions_entryWrites_succ (n : Nat) :
    s.afterActions (entryWrites t (n + 1)) =
      (s.afterActions (entryWrites t n)).setEntry (BitVec.ofNat 8 n) (t.entry (BitVec.ofNat 8 n)) := by
  rw [entryWrites, List.range_succ, List.map_append, State.afterActions_append]
  rfl

theorem State.byteAt_afterActions_byteWrites {n : Nat} (hn : n ≤ s.cfg.memSize) (hw : n ≤ 65536)
    {k : Nat} (hk : k < n) : (s.afterActions (byteWrites t n)).byteAt k = t.byteAt k := by
  induction n with
  | zero => omega
  | succ n ih =>
    have haddr : (BitVec.ofNat 16 n).toNat = n := by rw [BitVec.toNat_ofNat]; omega
    rw [State.afterActions_byteWrites_succ, HandlerAction.apply_write_of_lt, haddr, State.byteAt_setByte]
    · split
      · next he => rw [he]
      · exact ih (by omega) (by omega) (by omega)
    · rw [haddr, State.afterActions_cfg]; omega

theorem State.entry_afterActions_entryWrites {n : Nat} {id : Byte} (hid : id.toNat < n) :
    (s.afterActions (entryWrites t n)).entry id = t.entry id := by
  induction n with
  | zero => omega
  | succ n ih =>
    rw [State.afterActions_entryWrites_succ, State.entry_setEntry]
    split
    · next he => rw [he]
    · next hne =>
      refine ih (Nat.lt_of_le_of_ne (Nat.le_of_lt_succ hid) fun he => hne ?_)
      rw [← he, BitVec.ofNat_toNat, BitVec.setWidth_eq]

theorem State.afterActions_entryWrites_mem (n : Nat) :
    (s.afterActions (entryWrites t n)).mem = s.mem := by
  induction n with
  | zero => rfl
  | succ n ih => rw [State.afterActions_entryWrites_succ, State.setEntry_mem, ih]

/-- Setting every register is setting the register file. -/
theorem State.afterActions_registerWrites :
    s.afterActions (registerWrites t) = { s with regs := t.regs, halt := t.halt } := by
  obtain ⟨⟨_, _, _, _, _, _, _, _⟩, _, _, _, _, _⟩ := t
  rfl

end Reach

/-! #### A state in canonical form is what is read of it -/

section Canonical

variable {s t : State}

theorem State.Inv.afterActions (h : s.Inv) (acts : List HandlerAction) : (s.afterActions acts).Inv :=
  (State.InvKept.inv (s.afterActions_kept acts) h).1

/-- In canonical form memory lists exactly the bytes that are not zero. -/
theorem State.get_mem_eq (h : Mem.wf s.mem) (k : Nat) :
    Sparse.get k s.mem = if s.byteAt k = unlistedByte then none else some (s.byteAt k) := by
  unfold State.byteAt
  cases hk : Sparse.get k s.mem with
  | none => rfl
  | some v => exact (if_neg (h.2 _ (Sparse.get_mem hk))).symm

theorem State.byteAt_of_le (h : Mem.within s.cfg.memSize s.mem) {k : Nat} (hk : s.cfg.memSize ≤ k) :
    s.byteAt k = unlistedByte := by
  unfold State.byteAt
  cases hg : Sparse.get k s.mem with
  | none => rfl
  | some v => exact absurd (h _ (Sparse.get_mem hg)) (Nat.not_lt.2 hk)

/-- In canonical form the handler table lists only ids of 8 bits. -/
theorem State.get_table_eq (h : Table.wf s.table) (k : Nat) :
    Sparse.get k s.table = if k < 256 then s.entry (BitVec.ofNat 8 k) else none := by
  split
  · next hk => rw [State.entry, BitVec.toNat_ofNat, Nat.mod_eq_of_lt hk]
  · next hk =>
    cases hg : Sparse.get k s.table with
    | none => rfl
    | some e => exact absurd (h.2 _ (Sparse.get_mem hg)) hk

/-- Two states that meet the invariant and read alike are the same. -/
theorem State.eq_of_reads (hs : s.Inv) (ht : t.Inv) (hregs : s.regs = t.regs)
    (hbytes : ∀ k, s.byteAt k = t.byteAt k) (hhalt : s.halt = t.halt)
    (hentries : ∀ id, s.entry id = t.entry id) (hcfg : s.cfg = t.cfg) (hdraws : s.draws = t.draws) :
    s = t := by
  obtain ⟨-, hsm, -, hst⟩ := hs
  obtain ⟨-, htm, -, htt⟩ := ht
  have hmem : s.mem = t.mem := Sparse.ext_get hsm.1 htm.1 fun k => by
    rw [State.get_mem_eq hsm, State.get_mem_eq htm, hbytes]
  have htable : s.table = t.table := Sparse.ext_get hst.1 htt.1 fun k => by
    rw [State.get_table_eq hst, State.get_table_eq htt, hentries]
  cases s
  cases t
  simp_all

end Canonical

/-- With every byte of memory written, the bytes that memory does not back are those of a canonical form too. -/
theorem State.Inv.byteAt_afterActions_byteWrites {s t : State} (hs : s.Inv) (ht : t.Inv)
    (hcfg : t.cfg = s.cfg) (k : Nat) :
    (s.afterActions (byteWrites t s.cfg.memSize)).byteAt k = t.byteAt k := by
  by_cases hk : k < s.cfg.memSize
  · exact s.byteAt_afterActions_byteWrites t le_rfl hs.1.1.2 hk
  · obtain ⟨-, -, hwithin, -⟩ := hs.afterActions (byteWrites t s.cfg.memSize)
    obtain ⟨-, -, htwithin, -⟩ := ht
    rw [State.byteAt_of_le hwithin (by rw [State.afterActions_cfg]; omega),
      State.byteAt_of_le htwithin (by rw [hcfg]; omega)]

/-- Settles O37: a handler can write every byte, every entry, every register and halt, and a state in canonical
form is no more than these. -/
theorem handlerWritesReachEveryState : Obligations.HandlerWritesReachEveryState := by
  intro s t hs ht hcfg hdraws
  refine ⟨byteWrites t s.cfg.memSize ++ (entryWrites t 256 ++ registerWrites t), ?_⟩
  have hbytes := hs.byteAt_afterActions_byteWrites ht hcfg
  refine State.eq_of_reads (hs.afterActions _) ht ?_ ?_ ?_ ?_
    ((s.afterActions_cfg _).trans hcfg.symm) ((s.afterActions_draws _).trans hdraws.symm)
  all_goals
    rw [State.afterActions_append, State.afterActions_append, State.afterActions_registerWrites]
  · intro k
    rw [← hbytes, State.byteAt, State.byteAt, State.afterActions_entryWrites_mem]
  · intro id
    have hid : id.toNat < 256 := id.isLt
    have hentry :=
      State.entry_afterActions_entryWrites (s.afterActions (byteWrites t s.cfg.memSize)) t hid
    simpa only [State.entry] using hentry

end Sys2Proof.Machine

/-! ### Frames and what no instruction reads (R24, R29 and R31 of spec/10_state.md) -/

namespace Sys2Proof.Machine

/-- Settles O38: one instruction answers the state it is given, the other writes one register of it. -/
theorem registerInstructionsFrame : Obligations.RegisterInstructionsFrame := by
  refine fun s t => ⟨fun h => ?_, fun r1 r2 h => ?_⟩
  · rw [exec_nop] at h
    cases h
    exact ⟨fun _ _ => rfl, fun _ => rfl, rfl, rfl, rfl, rfl⟩
  · rw [exec_addRegister] at h
    cases h
    exact ⟨s.sameRegsBut_setReg r1 _, fun _ => rfl, s.sameControl_setReg r1 _⟩

/-- Settles O44: SP is the one register used implicitly, and FLAGS is not SP. -/
theorem flagsIsAnOrdinaryRegister : Obligations.FlagsIsAnOrdinaryRegister :=
  fun _ _ hc =>
    have hr : Reg.flags ≠ .sp := by decide
    ⟨exec_setReg_of_not_names hr hc,
      fun hw => ⟨fun _ => getReg_of_exec_next hr hc hw, fun _ _ => getReg_of_exec_failed hr hc hw⟩⟩

/-! #### The halt flag -/

section SetHalt

variable (s : State) (b : Bool)

@[simp] theorem State.inRange_setHalt (a : Int) : (s.setHalt b).inRange a = s.inRange a := rfl

@[simp] theorem State.spNat_setHalt : (s.setHalt b).spNat = s.spNat := rfl

@[simp] theorem slotBelow_setHalt (top : Nat) : slotBelow (s.setHalt b) top = slotBelow s top := rfl

@[simp] theorem State.setHalt_setByte (k : Nat) (v : Byte) :
    (s.setByte k v).setHalt b = (s.setHalt b).setByte k v := rfl

@[simp] theorem State.setHalt_setSpNat (n : Nat) :
    (s.setSpNat n).setHalt b = (s.setHalt b).setSpNat n := rfl

@[simp] theorem State.setHalt_nextDraw : s.nextDraw.setHalt b = (s.setHalt b).nextDraw := rfl

@[simp] theorem State.setHalt_halfWritten (a : Int) (w : Word) :
    (s.halfWritten a w).setHalt b = (s.setHalt b).halfWritten a w := by
  by_cases h : Config.storesLowByte s.draws <;> simp [State.halfWritten, h]

@[simp] theorem State.setHalt_halfPopped (top : Nat) :
    (s.halfPopped top).setHalt b = (s.setHalt b).halfPopped top := by
  by_cases h : Config.keepsFirstPop s.draws <;> simp [State.halfPopped, h]

theorem pushWord_setHalt (v : Word) :
    pushWord v (s.setHalt b) = mapStates (fun t => t.setHalt b) (pushWord v s) := by
  unfold pushWord
  by_cases ho : s.spNat + 2 > 0xFFFF
  · simp [ho]
  · cases h0 : s.inRange s.spNat
    · simp [ho, State.write2, h0]
    · cases h1 : s.inRange ((s.spNat : Int) + 1) <;> simp [ho, State.write2, h0, h1]

theorem execPopRegister_setHalt (r : Reg) :
    execPopRegister r (s.setHalt b) = mapStates (fun t => t.setHalt b) (execPopRegister r s) := by
  cases h : slotBelow s s.spNat <;> simp [execPopRegister, h]

theorem execAddStack_setHalt :
    execAddStack (s.setHalt b) = mapStates (fun t => t.setHalt b) (execAddStack s) := by
  rcases execAddStack_cases s with ⟨a, c, ha, hc, e⟩ | ⟨bad, ha, e⟩ | ⟨a, bad, ha, hc, e⟩
  · rw [e, execAddStack_ok (s := s.setHalt b) (a := a) (b := c) ha hc]
    simp
  · rw [e, execAddStack_of_no_slot (s := s.setHalt b) ha, mapStates_raise]
  · rw [e, execAddStack_of_no_second_slot (s := s.setHalt b) ha hc, mapStates_raise]
    simp

/-- An instruction other than `Signal` neither reads nor writes halt. -/
theorem exec_setHalt {i : Instr} (hi : i.isSignal = false) :
    exec i (s.setHalt b) = mapStates (fun t => t.setHalt b) (exec i s) := by
  cases i with
  | nop => rfl
  | push imm => exact pushWord_setHalt s b _
  | popRegister r => exact execPopRegister_setHalt s b r
  | pushRegister r => exact pushWord_setHalt s b _
  | addStack => exact execAddStack_setHalt s b
  | addRegister r1 r2 => rfl
  | signal id => cases hi

end SetHalt

/-- Settles O45: neither the fetch nor an instruction other than `Signal` reads halt. -/
theorem stepDoesNotReadHalt : Obligations.StepDoesNotReadHalt := by
  intro s b hno
  rcases fetch_cases s with ⟨_, hr, e⟩ | ⟨_, hr, hpc, e⟩ | ⟨_, _, hr, hpc, hd, e⟩ | ⟨_, i, hr, hpc, hd, e⟩
  · rw [step_of_fetch_error e, step_of_fetch_error (fetch_of_read2_error (s := s.setHalt b) hr)]
    rfl
  · rw [step_of_fetch_error e, step_of_fetch_error (fetch_of_overflow (s := s.setHalt b) hr hpc)]
    rfl
  · rw [step_of_fetch_error e, step_of_fetch_error (fetch_of_decode_error (s := s.setHalt b) hr hpc hd)]
    rfl
  · rw [step_of_fetch_ok e, step_of_fetch_ok (fetch_of_decode_ok (s := s.setHalt b) hr hpc hd)]
    exact exec_setHalt (s.advanced s.pcNat) b (hno i _ e)

end Sys2Proof.Machine

/-! ### Host operations (R41 of spec/10_state.md; R51 and R52 of spec/20_memory.md) -/

namespace Sys2Proof.Machine

/-- The state a host operation leaves, if it leaves one, meets P. -/
def HostResult.Leaves (P : State → Prop) : HostResult → Prop
  | .success _ t => P t
  | .failure _ t => P t
  | .hang _ => True
  | .refused _ => True

section HostLeaves

variable {P Q : State → Prop} {s t : State}

theorem HostResult.Leaves.success {o : HostResult} {reply : HostReply} (h : o.Leaves P)
    (ho : o = .success reply t) : P t := by subst ho; exact h

theorem HostResult.Leaves.failure {o : HostResult} {why : Failure} (h : o.Leaves P)
    (ho : o = .failure why t) : P t := by subst ho; exact h

theorem HostResult.Leaves.mono {o : HostResult} (h : o.Leaves P) (hPQ : ∀ t, P t → Q t) : o.Leaves Q := by
  cases o with
  | success reply t => exact hPQ t h
  | failure why t => exact hPQ t h
  | hang id => trivial
  | refused why => trivial

theorem HostResult.ofWrite_leaves {o : Except (Int × State) State} (hok : ∀ t, o = .ok t → P t)
    (herror : ∀ bad t, o = .error (bad, t) → P t) : (HostResult.ofWrite o).Leaves P := by
  cases o with
  | ok t => exact hok t rfl
  | error e => exact herror e.1 e.2 rfl

theorem HostResult.ofStep_leaves {o : Host.Outcome State Fault Refusal} (h : Machine.Leaves P o) :
    (HostResult.ofStep o).Leaves P := by
  cases o with
  | next t => exact h
  | fault f =>
    cases f with
    | failed why left => exact h
    | handlerHang id => trivial
  | refused why => trivial

end HostLeaves

/-! #### A bulk operation is a sequence of byte writes -/

section ByteWrites

variable {P : State → Prop} (hset : ∀ (u : State) k b, P u → P (u.setByte k b)) {s t : State}
include hset

/-- What every byte write keeps, a copy keeps. -/
theorem State.copyForward_keeps {src dst : Int} {n : Nat} (hs : P s)
    (h : s.copyForward src dst n = .ok t) : P t := by
  induction n generalizing s src dst with
  | zero => cases h; exact hs
  | succ n ih =>
    rw [State.copyForward] at h
    split at h
    · cases h
    · split at h
      · cases h
      · next hw =>
        obtain ⟨-, rfl⟩ := State.write_eq_some.1 hw
        exact ih (hset _ _ _ hs) h

/-- What every byte write keeps, a list of bytes written keeps. -/
theorem State.writeBytes_keeps {dst : Int} {bytes : List Byte} (hs : P s)
    (h : s.writeBytes dst bytes = .ok t) : P t := by
  induction bytes generalizing s dst with
  | nil => cases h; exact hs
  | cons b rest ih =>
    rw [State.writeBytes] at h
    split at h
    · cases h
    · next hw =>
      obtain ⟨-, rfl⟩ := State.write_eq_some.1 hw
      exact ih (hset _ _ _ hs) h

/-- What every byte write keeps, the bytes a failed bulk operation leaves keep. -/
theorem State.smearFrom_keeps (hs : P s) (draw : Nat) (dst : Int) (n : Nat) :
    P (s.smearFrom draw dst n) := by
  induction n with
  | zero => exact hs
  | succ n ih =>
    rw [State.smearFrom]
    rcases (s.smearFrom draw dst n).poke_cases (dst + n) (Config.bulkByte draw n) with e | ⟨-, e⟩ <;>
      rw [e]
    · exact ih
    · exact hset _ _ _ ih

end ByteWrites

section HostOps

variable {s t : State}

theorem State.CoreKept.smeared (s : State) (dst : Int) (n : Nat) : s.CoreKept (s.smeared dst n) :=
  ⟨.smeared s dst n, State.smearFrom_keeps (P := fun t => t.halt = s.halt ∧ t.table = s.table)
    (fun _ _ _ h => h) ⟨rfl, rfl⟩ _ _ _⟩

/-- A copy keeps the core state, whether it succeeds or fails. -/
theorem ofWrite_copy_leaves_coreKept (s : State) (src dst : Int) (n : Nat) :
    (HostResult.ofWrite (s.copy src dst n)).Leaves s.CoreKept := by
  unfold State.copy
  split
  · next h =>
    exact ⟨.copyForward h, State.copyForward_keeps (P := fun t => t.halt = s.halt ∧ t.table = s.table)
      (fun _ _ _ h => h) ⟨rfl, rfl⟩ h⟩
  · exact .smeared s dst n

/-- A load of an image keeps the core state, whether it succeeds or fails. -/
theorem ofWrite_loadImage_leaves_coreKept (s : State) (base : Int) (bytes : List Byte) :
    (HostResult.ofWrite (s.loadImage base bytes)).Leaves s.CoreKept := by
  unfold State.loadImage
  split
  · next h =>
    exact ⟨.writeBytes h, State.writeBytes_keeps (P := fun t => t.halt = s.halt ∧ t.table = s.table)
      (fun _ _ _ h => h) ⟨rfl, rfl⟩ h⟩
  · exact .smeared s base bytes.length

/-- A host operation on a machine, other than a step of it, keeps halt and the invariant. -/
theorem hostOp_leaves {op : HostOp} (hstep : op ≠ .step) (hnew : op ≠ .construct) (s : State) :
    (hostOp op s).Leaves fun t => s.InvKept t ∧ t.halt = s.halt := by
  have hcore : ∀ t, s.CoreKept t → s.InvKept t ∧ t.halt = s.halt := fun t h => ⟨h.invKept, h.2.1⟩
  cases op with
  | step => exact absurd rfl hstep
  | construct => exact absurd rfl hnew
  | loadImage bytes base => exact (ofWrite_loadImage_leaves_coreKept s _ bytes).mono hcore
  | memRead addr =>
    rcases hostOp_memRead_cases s addr with e | ⟨_, e⟩ <;> rw [e] <;> exact hcore s (.refl s)
  | memWrite addr v =>
    simp only [hostOp]
    split
    · exact hcore s (.refl s)
    · next h => exact hcore _ (.write h)
  | read2 addr =>
    simp only [hostOp]
    split <;> exact hcore s (.refl s)
  | write2 addr v =>
    exact HostResult.ofWrite_leaves (fun t h => hcore t (.write2 h)) fun _ t h => hcore t (.write2_failed h)
  | copy src dst n => exact (ofWrite_copy_leaves_coreKept s _ _ n).mono hcore
  | getReg r => exact hcore s (.refl s)
  | setReg r v => exact hcore _ (.setReg s r v)
  | registerHandler id h => exact ⟨.setEntry s id _, rfl⟩
  | getHalt => exact hcore s (.refl s)

theorem State.construct_inv {cfg : Config} (h : cfg.wf) : (State.construct cfg).Inv :=
  ⟨h, ⟨List.Pairwise.nil, nofun⟩, nofun, List.Pairwise.nil, nofun⟩

end HostOps

/-- Settles O53: only a step and the making of a new machine write halt. -/
theorem hostCannotWriteHalt : Obligations.HostCannotWriteHalt := by
  intro s op hstep hnew
  have h := hostOp_leaves hstep hnew s
  exact ⟨fun _ _ ho => (h.success ho).2, fun _ _ ho => (h.failure ho).2⟩

/-- Settles O49: empty memory and an empty table are in canonical form. -/
theorem constructionMeetsTheInvariant : Obligations.ConstructionMeetsTheInvariant :=
  ⟨fun _ => State.construct_inv, State.construct_inv (by decide)⟩

/-- Settles O48: a step keeps the invariant, a new machine meets it, and every other operation writes through
the memory capability, a register or an entry. -/
theorem hostOperationsKeepTheInvariant : Obligations.HostOperationsKeepTheInvariant := by
  intro s op hs
  have h : (hostOp op s).Leaves fun t => t.Inv ∧ t.cfg = s.cfg := by
    by_cases hstep : op = .step
    · subst hstep
      exact HostResult.ofStep_leaves ((step_leaves_invKept s).mono fun _ ht => ht.inv hs)
    · by_cases hnew : op = .construct
      · subst hnew
        exact ⟨State.construct_inv hs.1, rfl⟩
      · exact (hostOp_leaves hstep hnew s).mono fun _ ht => ht.1.inv hs
  exact ⟨fun _ _ => h.success, fun _ _ => h.failure⟩

end Sys2Proof.Machine

/-! ### Pushes followed by pops, and pushes onto code (R143, R66 and R206) -/

namespace Sys2Proof.Machine

/-- The n words below a stack pointer, the top slot first (R28). -/
def State.slotsBelow (s : State) : Nat → Nat → List Word
  | _, 0 => []
  | top, n + 1 => s.wordAt (top - 2) :: s.slotsBelow (top - 2) n

theorem State.read2_eq_wordAt {s : State} {k : Nat} (h : k + 1 < s.cfg.memSize) :
    s.read2 k = .ok (s.wordAt k) := by
  obtain ⟨h0, h1⟩ := State.inRange_word (s := s) (a := k) (by omega) (by omega)
  exact State.read2_eq_ok.2 ⟨h0, h1, rfl⟩

section Slots

variable {s t : State}

theorem State.slotsBelow_congr (h : t.mem = s.mem) (top n : Nat) :
    t.slotsBelow top n = s.slotsBelow top n := by
  induction n generalizing top with
  | zero => rfl
  | succ n ih => rw [State.slotsBelow, State.slotsBelow, ih, State.wordAt, State.byteAt, State.byteAt, h]; rfl

/-- One slot more is the slot at the other end. -/
theorem State.slotsBelow_succ (s : State) (top n : Nat) :
    s.slotsBelow top (n + 1) = s.slotsBelow top n ++ [s.wordAt (top - 2 * (n + 1))] := by
  induction n generalizing top with
  | zero => rfl
  | succ n ih =>
    rw [State.slotsBelow, ih, State.slotsBelow, List.cons_append]
    congr 4
    omega

/-- Pops into registers other than SP give the slots below SP, the top one first. -/
theorem popAll_eq {rs : List Reg} (hrs : ∀ r ∈ rs, r ≠ .sp) (hlow : 2 * rs.length ≤ s.spNat)
    (hmem : s.spNat ≤ s.cfg.memSize) :
    ∃ u, popAll rs s = some (u, s.slotsBelow s.spNat rs.length) ∧
      u.spNat = s.spNat - 2 * rs.length := by
  induction rs generalizing s with
  | nil => exact ⟨s, rfl, rfl⟩
  | cons r rest ih =>
    obtain ⟨hr, hrest⟩ := List.forall_mem_cons.1 hrs
    rw [List.length_cons] at hlow ⊢
    obtain ⟨t, ht, hword, hsp, -, hsame, -, -, hcfg, -⟩ :=
      popRegisterLoadsTheTopSlot s r (by omega) hmem
    have hsp := hsp hr
    obtain ⟨u, hu, husp⟩ := ih (s := t) hrest (by omega) (by rw [hcfg]; omega)
    refine ⟨u, ?_, by omega⟩
    rw [popAll, ht]
    simp only [hu, Option.map_some, hword, hsp, State.slotsBelow, State.slotsBelow_congr hsame]

theorem exec_push_completes {i : Instr} (hi : i.isPush = true) (hsp : s.spNat + 2 ≤ 0xFFFF)
    (hmem : s.spNat + 1 < s.cfg.memSize) : exec i s = .next (s.pushed (pushedValue s i)) :=
  (exec_of_isPush hi s).trans (pushWord_eq_next.2 ⟨⟨hsp, hmem⟩, rfl⟩)

/-- Pushes that fit complete: the slots they fill hold the values pushed, the last on top, and the words below
the old SP are kept. -/
theorem pushAll_eq {is : List Instr} (his : ∀ i ∈ is, i.isPush = true)
    (hsp : s.spNat + 2 * is.length ≤ 0xFFFF) (hmem : s.spNat + 2 * is.length ≤ s.cfg.memSize) :
    ∃ t vs, pushAll is s = some (t, vs) ∧ vs.length = is.length ∧
      t.spNat = s.spNat + 2 * is.length ∧ t.cfg = s.cfg ∧
      t.slotsBelow t.spNat is.length = vs.reverse ∧
      ∀ k, k + 2 ≤ s.spNat → t.wordAt k = s.wordAt k := by
  induction is generalizing s with
  | nil => exact ⟨s, [], rfl, rfl, rfl, rfl, rfl, fun _ _ => rfl⟩
  | cons i rest ih =>
    obtain ⟨hi, hrest⟩ := List.forall_mem_cons.1 his
    rw [List.length_cons] at hsp hmem ⊢
    have hexec := exec_push_completes hi (s := s) (by omega) (by omega)
    have hsp1 := State.spNat_pushed (pushedValue s i) (s := s) (by omega)
    obtain ⟨t, vs, hpush, hlen, htsp, hcfg, hslots, hbelow⟩ :=
      ih (s := s.pushed (pushedValue s i)) hrest (by omega) (by rw [State.pushed_cfg]; omega)
    refine ⟨t, pushedValue s i :: vs, ?_, by rw [List.length_cons, hlen], by omega, hcfg, ?_,
      fun k hk => ?_⟩
    · rw [pushAll, hexec]
      simp only [hpush, Option.map_some]
    · have hbottom : t.spNat - 2 * (rest.length + 1) = s.spNat := by omega
      rw [State.slotsBelow_succ, hslots, hbottom, hbelow _ (by omega), State.wordAt_pushed,
        State.wordAt_putWord_same, List.reverse_cons]
    · rw [hbelow k (by omega), State.wordAt_pushed, State.wordAt_putWord_of_disjoint _ _ _ _ (by omega)]

end Slots

/-- Settles O50: the slots that the pushes fill are those that the pops read, from the top down. -/
theorem pushedValuesPopInReverse : Obligations.PushedValuesPopInReverse := by
  intro s is rs his hlen hrs hsp hmem
  obtain ⟨t, vs, hpush, hvs, htsp, hcfg, hslots, -⟩ := pushAll_eq his hsp hmem
  obtain ⟨u, hpop, husp⟩ := popAll_eq (s := t) (rs := rs) (fun r hr => (hrs r hr).1) (by omega)
    (by rw [hcfg]; omega)
  exact ⟨t, u, vs, hpush, hvs, by rw [hpop, hlen, hslots], by omega⟩

/-- Settles O51: what a push leaves at the next fetch's address is the word it pushed. -/
theorem pushedWordIsFetchedNext : Obligations.PushedWordIsFetchedNext := by
  intro s i hi hsp hmem hpc
  have htpc : (s.pushed (pushedValue s i)).pcNat = s.spNat :=
    (congrArg BitVec.toNat ((s.pushed_frame _).1 .pc (by decide))).trans hpc
  have hread : (s.pushed (pushedValue s i)).read2 (s.pushed (pushedValue s i)).pcNat =
      .ok (pushedValue s i) := by
    rw [htpc, State.read2_eq_wordAt (by rwa [State.pushed_cfg]), State.wordAt_pushed,
      State.wordAt_putWord_same]
  refine ⟨_, exec_push_completes hi hsp hmem, htpc, hread, fun j hd => ?_, fun why hd => ?_⟩
  · have hf := fetch_of_decode_ok hread (by omega) hd
    exact ⟨hf, step_of_fetch_ok hf⟩
  · exact step_of_fetch_error (fetch_of_decode_error hread (by omega) hd)

end Sys2Proof.Machine

/-! ### The run loop and the kinds of run (R199 to R201 of spec/70_reset_and_hazards.md) -/

namespace Sys2Proof.Machine

/-- How the step from a state ends the run loop, where it does (R199, R201). -/
def State.StopsAs (s : State) : RunEnd → Prop
  | .halted t => step s = .next t ∧ t.halt = true
  | .faulted why left => step s = .fault (.failed why left)
  | .hang id => step s = .fault (.handlerHang id)
  | .cutShort _ => False
  | .refused _ => False

section RunLoop

variable {s t u : State} {n : Nat} {e e' : RunEnd}

/-- A step ends the run loop, or succeeds with halt false. -/
theorem State.continues_or_stops (s : State) :
    (∃ t, step s = .next t ∧ t.halt = false) ∨ ∃ e, s.StopsAs e := by
  cases hs : step s with
  | next t =>
    cases hh : t.halt with
    | false => exact .inl ⟨t, rfl, hh⟩
    | true => exact .inr ⟨.halted t, hs, hh⟩
  | fault f =>
    cases f with
    | failed why left => exact .inr ⟨.faulted why left, hs⟩
    | handlerHang id => exact .inr ⟨.hang id, hs⟩
  | refused why => exact absurd hs (step_ne_refused s why)

theorem runLoop_succ_of_stopsAs (h : s.StopsAs e) (n : Nat) : runLoop (n + 1) s = e := by
  cases e with
  | halted t =>
    obtain ⟨hs, hh⟩ := h
    rw [runLoop, hs]
    exact if_pos hh
  | faulted why left | hang id => rw [runLoop, show step s = _ from h]
  | cutShort u | refused why => exact h.elim

theorem runLoop_succ_of_next (h : step s = .next t) (hh : t.halt = false) (n : Nat) :
    runLoop (n + 1) s = runLoop n t := by
  rw [runLoop, h]
  simp [hh]

/-- A quiet step does not end the run loop. -/
theorem State.not_stopsAs_of_quietly {k : Nat} (h : s.Quietly (k + 1) u) : ¬ s.StopsAs e := by
  intro he
  obtain ⟨t, ht, hh, -⟩ := State.quietly_succ.1 h
  obtain rfl : e = .cutShort t :=
    (runLoop_succ_of_stopsAs he 0).symm.trans (runLoop_succ_of_next ht hh 0)
  exact he

/-- After a first quiet step, the quiet steps are those from the state it reaches. -/
theorem State.quietly_succ_of_next {k : Nat} (h : step s = .next t) (hh : t.halt = false) :
    s.Quietly (k + 1) u ↔ t.Quietly k u := by
  rw [State.quietly_succ]
  refine ⟨fun ⟨v, hv, _, hq⟩ => ?_, fun hq => ⟨t, h, hh, hq⟩⟩
  rwa [Host.Outcome.next.inj (h.symm.trans hv)]

/-- The run loop is cut short exactly when every step its limit allows is quiet. -/
theorem runLoop_eq_cutShort : runLoop n s = .cutShort u ↔ s.Quietly n u := by
  induction n generalizing s with
  | zero => rw [State.quietly_zero, runLoop, RunEnd.cutShort.injEq, eq_comm]
  | succ n ih =>
    rcases s.continues_or_stops with ⟨t, ht, hh⟩ | ⟨e, he⟩
    · rw [runLoop_succ_of_next ht hh, State.quietly_succ_of_next ht hh, ih]
    · rw [runLoop_succ_of_stopsAs he]
      exact ⟨fun hu => (hu ▸ he : s.StopsAs (.cutShort u)).elim,
        fun hq => absurd he (State.not_stopsAs_of_quietly hq)⟩

/-- The run loop ends otherwise exactly when quiet steps within its limit lead to a step that ends it so. -/
theorem runLoop_eq_iff (he : ∀ u, e ≠ .cutShort u) :
    runLoop n s = e ↔ ∃ k u, k < n ∧ s.Quietly k u ∧ u.StopsAs e := by
  constructor
  · intro h
    induction n generalizing s with
    | zero => exact absurd h.symm (he s)
    | succ n ih =>
      rcases s.continues_or_stops with ⟨t, ht, hh⟩ | ⟨e', he'⟩
      · rw [runLoop_succ_of_next ht hh] at h
        obtain ⟨k, u, hk, hq, hu⟩ := ih h
        exact ⟨k + 1, u, Nat.succ_lt_succ hk, (State.quietly_succ_of_next ht hh).2 hq, hu⟩
      · rw [runLoop_succ_of_stopsAs he'] at h
        exact ⟨0, s, n.succ_pos, State.quietly_zero.2 rfl, h ▸ he'⟩
  · rintro ⟨k, u, hk, hq, hu⟩
    induction k generalizing s n with
    | zero =>
      obtain rfl := State.quietly_zero.1 hq
      obtain ⟨n, rfl⟩ := Nat.exists_eq_add_of_lt hk
      exact runLoop_succ_of_stopsAs hu _
    | succ k ih =>
      obtain ⟨t, ht, hh, hq⟩ := State.quietly_succ.1 hq
      obtain ⟨n, rfl⟩ := Nat.exists_eq_add_one_of_ne_zero (Nat.ne_zero_of_lt hk)
      rw [runLoop_succ_of_next ht hh]
      exact ih (Nat.lt_of_succ_lt_succ hk) hq

/-! #### Runs with no limit on their steps -/

/-- Quiet steps lead to a step that ends the run so. -/
def State.EndsIn (s : State) (e : RunEnd) : Prop := ∃ k u, s.Quietly k u ∧ u.StopsAs e

theorem State.runHalts_iff : s.RunHalts t ↔ s.EndsIn (.halted t) := Iff.rfl

theorem State.runFaults_iff {why : Failure} : s.RunFaults why t ↔ s.EndsIn (.faulted why t) := Iff.rfl

theorem State.runHangs_iff :
    s.RunHangs ↔ (∀ k, ∃ u, s.Quietly k u) ∨ ∃ id, s.EndsIn (.hang id) :=
  or_congr_right ⟨fun ⟨k, u, id, h⟩ => ⟨id, k, u, h⟩, fun ⟨id, k, u, h⟩ => ⟨k, u, id, h⟩⟩

theorem State.EndsIn.ne_cutShort (h : s.EndsIn e) (u : State) : e ≠ .cutShort u := by
  obtain ⟨_, _, -, hv⟩ := h
  rintro rfl
  exact hv

/-- A run that ends is seen by the run loop under every limit that is large enough. -/
theorem State.EndsIn.exists_runLoop (h : s.EndsIn e) : ∃ N, ∀ n, N ≤ n → runLoop n s = e := by
  have he := h.ne_cutShort
  obtain ⟨k, u, hq, hu⟩ := h
  exact ⟨k + 1, fun n hn => (runLoop_eq_iff he).2 ⟨k, u, hn, hq, hu⟩⟩

theorem State.EndsIn.unique (h : s.EndsIn e) (h' : s.EndsIn e') : e = e' := by
  obtain ⟨N, hN⟩ := h.exists_runLoop
  obtain ⟨N', hN'⟩ := h'.exists_runLoop
  exact (hN _ (le_max_left N N')).symm.trans (hN' _ (le_max_right N N'))

theorem State.EndsIn.not_quiet (h : s.EndsIn e) : ¬ ∀ k, ∃ u, s.Quietly k u := by
  intro hq
  obtain ⟨N, hN⟩ := h.exists_runLoop
  obtain ⟨u, hu⟩ := hq N
  exact h.ne_cutShort u ((hN N le_rfl).symm.trans (runLoop_eq_cutShort.2 hu))

/-- A run with an end other than a hung handler does not hang. -/
theorem State.EndsIn.not_runHangs (h : s.EndsIn e) (he : ∀ id, e ≠ .hang id) : ¬ s.RunHangs := by
  rw [State.runHangs_iff]
  rintro (hq | ⟨id, hid⟩)
  · exact h.not_quiet hq
  · exact he id (h.unique hid)

/-- A run that is not quiet for ever ends. -/
theorem State.exists_endsIn (h : ¬ ∀ k, ∃ u, s.Quietly k u) : ∃ e, s.EndsIn e := by
  obtain ⟨n, hn⟩ := not_forall.1 h
  have he : ∀ u, runLoop n s ≠ .cutShort u := fun u hu => hn ⟨u, runLoop_eq_cutShort.1 hu⟩
  obtain ⟨k, u, -, hq, hu⟩ := (runLoop_eq_iff he).1 rfl
  exact ⟨_, k, u, hq, hu⟩

end RunLoop

/-- Every run is of one of the three kinds of R201. -/
theorem State.runKinds (s : State) :
    (∃ t, s.RunHalts t) ∨ (∃ why left, s.RunFaults why left) ∨ s.RunHangs := by
  rw [State.runHangs_iff]
  by_cases hq : ∀ k, ∃ u, s.Quietly k u
  · exact .inr (.inr (.inl hq))
  · obtain ⟨e, h⟩ := State.exists_endsIn hq
    cases e with
    | halted t => exact .inl ⟨t, h⟩
    | faulted why left => exact .inr (.inl ⟨why, left, h⟩)
    | hang id => exact .inr (.inr (.inr ⟨id, h⟩))
    | cutShort u | refused why =>
      obtain ⟨_, _, -, hu⟩ := h
      exact hu.elim

/-- Settles O52: the run loop ends at the first step that ends a run, and a run has at most one end. -/
theorem runLoopEndsAtHaltOrFault : Obligations.RunLoopEndsAtHaltOrFault := by
  refine ⟨fun _ _ t => runLoop_eq_iff (e := .halted t) nofun,
    fun _ _ why left => runLoop_eq_iff (e := .faulted why left) nofun,
    fun _ _ id => runLoop_eq_iff (e := .hang id) nofun, fun _ _ _ => runLoop_eq_cutShort,
    fun s => ⟨s.runKinds, fun t ht => ?_, fun why left hl => ?_⟩⟩
  · rw [State.runHalts_iff] at ht
    refine ⟨ht.not_runHangs nofun, fun why left hl => ?_, fun t' ht' => ?_⟩
    · cases ht.unique (State.runFaults_iff.1 hl)
    · cases ht.unique (State.runHalts_iff.1 ht')
      rfl
  · rw [State.runFaults_iff] at hl
    refine ⟨hl.not_runHangs nofun, fun why' left' hl' => ?_⟩
    cases hl.unique (State.runFaults_iff.1 hl')
    exact ⟨rfl, rfl⟩

end Sys2Proof.Machine

/-! ### Literals, refused lines and the text of an instruction (R92 to R98 of spec/30_encoding.md) -/

namespace Sys2Proof.Machine

/-! #### Digits (R94) -/

section Digits

variable {base d n : Nat} {c : Char}

/-- Everything that is a digit in a base, and its value. -/
theorem digitValue_cases (h : digitValue base c = some d) : d < base ∧
    ((('0' ≤ c ∧ c ≤ '9') ∧ d = c.toNat - 48) ∨ (('a' ≤ c ∧ c ≤ 'f') ∧ d = c.toNat - 87) ∨
      (('A' ≤ c ∧ c ≤ 'F') ∧ d = c.toNat - 55)) := by
  unfold digitValue at h
  obtain ⟨hv, hd⟩ := Option.filter_eq_some_iff.1 h
  refine ⟨of_decide_eq_true hd, ?_⟩
  split at hv
  · next hc => exact .inl ⟨hc, (Option.some.inj hv).symm⟩
  · split at hv
    · next hc => exact .inr (.inl ⟨hc, (Option.some.inj hv).symm⟩)
    · split at hv
      · next hc => exact .inr (.inr ⟨hc, (Option.some.inj hv).symm⟩)
      · cases hv

theorem isDigit_of_le (h : '0' ≤ c ∧ c ≤ '9') : c.isDigit = true := by
  simp only [Char.isDigit, Bool.and_eq_true, decide_eq_true_eq]
  exact h

/-- A digit of base ten is a decimal digit. -/
theorem isDigit_of_digitValue_ten (h : digitValue 10 c = some d) : c.isDigit = true := by
  obtain ⟨hd, ⟨hc, -⟩ | ⟨⟨hc, -⟩, rfl⟩ | ⟨⟨hc, -⟩, rfl⟩⟩ := digitValue_cases h
  · exact isDigit_of_le hc
  · have : 97 ≤ c.toNat := hc
    omega
  · have : 65 ≤ c.toNat := hc
    omega

/-- A digit of base two is 0 or 1. -/
theorem eq_of_digitValue_two (h : digitValue 2 c = some d) : c = '0' ∨ c = '1' := by
  obtain ⟨hd, ⟨⟨hc, -⟩, rfl⟩ | ⟨⟨hc, -⟩, rfl⟩ | ⟨⟨hc, -⟩, rfl⟩⟩ := digitValue_cases h
  · have h48 : 48 ≤ c.toNat := hc
    have hval : c.toNat = 48 ∨ c.toNat = 49 := by omega
    exact hval.imp (fun h => Char.toNat_inj.1 h) (fun h => Char.toNat_inj.1 h)
  · have : 97 ≤ c.toNat := hc
    omega
  · have : 65 ≤ c.toNat := hc
    omega

/-- A base of at most sixteen takes the digits of base sixteen that are below it. -/
theorem digitValue_eq_filter (hb : base ≤ 16) (c : Char) :
    digitValue base c = (digitValue 16 c).filter (· < base) := by
  simp only [digitValue, Option.filter_filter]
  congr 1
  funext k
  simpa using fun hk => lt_of_lt_of_le hk hb

theorem digitValue_digitChar (hb : base ≤ 16) (hd : d < base) : digitValue base d.digitChar = some d := by
  have h16 : ∀ d < 16, digitValue 16 (Nat.digitChar d) = some d := by decide
  rw [digitValue_eq_filter hb, h16 d (by omega), Option.filter_some, if_pos (by simpa using hd)]

theorem digitValue_toLower (c : Char) : digitValue 16 c.toLower = digitValue 16 c := by
  by_cases hc : 65 ≤ c.toNat ∧ c.toNat < 91
  · have hupper : ∀ k < 91, 65 ≤ k →
        digitValue 16 (Char.ofNat k).toLower = digitValue 16 (Char.ofNat k) := by decide
    simpa using hupper c.toNat hc.2 hc.1
  · have hlower : c.toLower = c := dif_neg fun h => hc ⟨h.1, Nat.lt_succ_of_le h.2⟩
    rw [hlower]

theorem digitsFrom_append (base acc : Nat) (l m : List Char) :
    digitsFrom base acc (l ++ m) = (digitsFrom base acc l).bind fun a => digitsFrom base a m := by
  induction l generalizing acc with
  | nil => rfl
  | cons c rest ih =>
    rw [List.cons_append, digitsFrom, digitsFrom]
    cases digitValue base c with
    | none => rfl
    | some d => exact ih _

/-- The digits that Lean writes for a number denote the number. -/
theorem digitsFrom_toDigits (h1 : 1 < base) (hb : base ≤ 16) (n : Nat) :
    digitsFrom base 0 (Nat.toDigits base n) = some n := by
  induction n using Nat.strongRecOn with
  | ind n ih =>
    by_cases hn : n < base
    · simp [Nat.toDigits_of_lt_base hn, digitsFrom, digitValue_digitChar hb hn]
    · have hmod := digitValue_digitChar hb (Nat.mod_lt n (by omega))
      rw [Nat.toDigits_of_base_le h1 (by omega), digitsFrom_append, ih _ (Nat.div_lt_self (by omega) h1)]
      simp [digitsFrom, hmod, Nat.div_add_mod']

theorem digitsFrom_map_toLower (acc : Nat) (l : List Char) :
    digitsFrom 16 acc (l.map Char.toLower) = digitsFrom 16 acc l := by
  induction l generalizing acc with
  | nil => rfl
  | cons c rest ih => simp only [List.map_cons, digitsFrom, digitValue_toLower, ih]

/-- Leading zeros change no number. -/
theorem digits_zeros_append (h1 : 1 < base) (hb : base ≤ 16) (zeros : Nat) {l : List Char} (hl : l ≠ [])
    (h : digitsFrom base 0 l = some n) : digits base (List.replicate zeros '0' ++ l) = some n := by
  have hzeros : digitsFrom base 0 (List.replicate zeros '0') = some 0 := by
    induction zeros with
    | zero => rfl
    | succ zeros ih =>
      have hzero : digitValue base '0' = some 0 := digitValue_digitChar hb (d := 0) (by omega)
      simpa [List.replicate_succ, digitsFrom, hzero] using ih
  have hdigits : ∀ l : List Char, l ≠ [] → digits base l = digitsFrom base 0 l := by
    rintro (_ | ⟨c, rest⟩) hl
    · exact absurd rfl hl
    · rfl
  rw [hdigits _ (by simp [hl]), digitsFrom_append, hzeros, Option.bind_some, h]

/-- A token that denotes a number is one or more digits of its base. -/
theorem digitValue_of_digits {l : List Char} (h : digits base l = some n) :
    l ≠ [] ∧ ∀ c ∈ l, ∃ d, digitValue base c = some d := by
  have hfrom : ∀ l acc, digitsFrom base acc l = some n → ∀ c ∈ l, ∃ d, digitValue base c = some d := by
    intro l
    induction l with
    | nil => simp
    | cons c rest ih =>
      intro acc h
      rw [digitsFrom] at h
      split at h
      · cases h
      · next d hd => exact List.forall_mem_cons.2 ⟨⟨d, hd⟩, ih _ h⟩
  cases l with
  | nil => cases h
  | cons c rest => exact ⟨List.cons_ne_nil _ _, hfrom _ _ h⟩

end Digits

/-! #### Literals (R94) -/

section Literals

variable {token : List Char} {n : Nat}

theorem parseLiteral_of_number {p : AsmParams} (h : literalNumber p token = some n) :
    parseLiteral p token = if n ≤ 255 then .ok (BitVec.ofNat 8 n) else .error (.badLiteral token) := by
  rw [parseLiteral, h]

theorem parseLiteral_of_no_number {p : AsmParams} (h : literalNumber p token = none) :
    parseLiteral p token = .error (.badLiteral token) := by
  rw [parseLiteral, h]

theorem literalNumber_hex (h : List Char) : literalNumber AsmParams.default ('$' :: h) = digits 16 h := rfl

theorem literalNumber_binary (b : List Char) : literalNumber AsmParams.default ('%' :: b) = digits 2 b := rfl

/-- A token that begins with neither marker is read in base ten. -/
theorem literalNumber_decimal (hhex : token.head? ≠ some '$') (hbin : token.head? ≠ some '%') :
    literalNumber AsmParams.default token = digits 10 token := by
  cases token with
  | nil => rfl
  | cons c rest =>
    have h1 : c ≠ AsmParams.default.hexPrefix := fun h => hhex (congrArg some h)
    have h2 : c ≠ AsmParams.default.binPrefix := fun h => hbin (congrArg some h)
    rw [literalNumber, if_neg h1, if_neg h2]

/-- A run of decimal digits begins with neither marker. -/
theorem literalNumber_of_digits (h : ∀ c ∈ token, c.isDigit = true) :
    literalNumber AsmParams.default token = digits 10 token := by
  have hmarker : ∀ c : Char, c.isDigit = false → token.head? ≠ some c := by
    intro c hc he
    rw [h c (List.mem_of_mem_head? he)] at hc
    cases hc
  exact literalNumber_decimal (hmarker '$' rfl) (hmarker '%' rfl)

/-- Leading zeros and the decimal digits of a number denote the number. -/
theorem literalNumber_zeros_toDigits (zeros n : Nat) :
    literalNumber AsmParams.default (List.replicate zeros '0' ++ Nat.toDigits 10 n) = some n := by
  have hchars : ∀ c ∈ List.replicate zeros '0' ++ Nat.toDigits 10 n, c.isDigit = true := by
    intro c hc
    rcases List.mem_append.1 hc with hc | hc
    · rw [List.eq_of_mem_replicate hc]; rfl
    · exact Nat.isDigit_of_mem_toDigits (by decide) le_rfl hc
  rw [literalNumber_of_digits hchars]
  exact digits_zeros_append (by decide) (by decide) zeros Nat.toDigits_ne_nil
    (digitsFrom_toDigits (by decide) (by decide) n)

end Literals

/-- Settles O57: a marker chooses the base, and in a base a run of digits denotes its number, and nothing else
does. -/
theorem literalsAreTheirNumbers : Obligations.LiteralsAreTheirNumbers := by
  refine ⟨fun n zeros token htoken => parseLiteral_of_number ?_,
    fun token hdec hhex hbin => parseLiteral_of_no_number ?_⟩
  · rcases htoken with rfl | ⟨h, hh, rfl⟩ | rfl
    · exact literalNumber_zeros_toDigits zeros n
    · have hne : h ≠ [] := by
        rintro rfl
        exact Nat.toDigits_ne_nil hh.symm
      refine (literalNumber_hex _).trans (digits_zeros_append (by decide) le_rfl zeros hne ?_)
      rw [← digitsFrom_map_toLower, hh]
      exact digitsFrom_toDigits (by decide) le_rfl n
    · exact (literalNumber_binary _).trans (digits_zeros_append (by decide) (by decide) zeros
        Nat.toDigits_ne_nil (digitsFrom_toDigits (by decide) (by decide) n))
  · rw [Option.eq_none_iff_forall_ne_some]
    intro n hn
    by_cases h1 : token.head? = some '$'
    · obtain ⟨h, rfl⟩ := List.head?_eq_some_iff.1 h1
      obtain ⟨hne, hchars⟩ := digitValue_of_digits hn
      refine hhex ⟨h, hne, rfl, fun c hc => ?_⟩
      obtain ⟨d, hd⟩ := hchars c hc
      obtain ⟨-, hc⟩ := digitValue_cases hd
      exact hc.imp (fun h => isDigit_of_le h.1) (Or.imp And.left And.left)
    · by_cases h2 : token.head? = some '%'
      · obtain ⟨b, rfl⟩ := List.head?_eq_some_iff.1 h2
        obtain ⟨hne, hchars⟩ := digitValue_of_digits hn
        refine hbin ⟨b, hne, rfl, fun c hc => ?_⟩
        obtain ⟨d, hd⟩ := hchars c hc
        exact eq_of_digitValue_two hd
      · rw [literalNumber_decimal h1 h2] at hn
        obtain ⟨hne, hchars⟩ := digitValue_of_digits hn
        refine hdec ⟨hne, fun c hc => ?_⟩
        obtain ⟨d, hd⟩ := hchars c hc
        exact isDigit_of_digitValue_ten hd

/-! #### The text of any instruction (R97) -/

/-- The model's decimal text of a number is the one Lean writes. -/
theorem decimalText_eq_toDigits {n : Nat} (hn : n < 1000) : decimalText n = Nat.toDigits 10 n := by
  have hdigit : ∀ k < 10, Char.ofNat (48 + k) = k.digitChar := by decide
  simp only [decimalText]
  split
  · next h => rw [Nat.toDigits_of_lt_base h, hdigit n h]
  · split
    · next h1 h2 =>
      rw [Nat.toDigits_of_base_le (by decide) (by omega), Nat.toDigits_of_lt_base (n := n / 10) (by omega),
        hdigit _ (by omega), hdigit _ (by omega)]
      rfl
    · next h1 h2 =>
      rw [Nat.toDigits_of_base_le (by decide) (by omega),
        Nat.toDigits_of_base_le (n := n / 10) (by decide) (by omega),
        Nat.toDigits_of_lt_base (n := n / 10 / 10) (by omega), Nat.div_div_eq_div_mul,
        hdigit _ (by omega), hdigit _ (by omega), hdigit _ (by omega)]
      rfl

theorem isPrintable_toDigits (n : Nat) : IsPrintable (Nat.toDigits 10 n) := by
  refine ⟨Nat.toDigits_ne_nil, fun c hc => ?_⟩
  have h : c.isDigit = true := Nat.isDigit_of_mem_toDigits (by decide) le_rfl hc
  simp only [Char.isDigit, Bool.and_eq_true, decide_eq_true_eq] at h
  have h0 : 48 ≤ c.toNat := h.1
  have h9 : c.toNat ≤ 57 := h.2
  omega

/-- The decimal text of a byte is read back as the byte. -/
theorem parseLiteral_decimalText (v : Byte) :
    parseLiteral AsmParams.default (decimalText v.toNat) = .ok v := by
  have hv := v.isLt
  have hnumber : literalNumber AsmParams.default (decimalText v.toNat) = some v.toNat := by
    rw [decimalText_eq_toDigits (by omega)]
    exact literalNumber_zeros_toDigits 0 v.toNat
  rw [parseLiteral_of_number hnumber, if_pos (by omega), BitVec.ofNat_toNat, BitVec.setWidth_eq]

theorem isPrintable_decimalText (v : Byte) : IsPrintable (decimalText v.toNat) := by
  rw [decimalText_eq_toDigits (by have := v.isLt; omega)]
  exact isPrintable_toDigits _

theorem isPrintable_operandTexts (i : Instr) : ∀ x ∈ operandTexts i, IsPrintable x := by
  cases i with
  | nop | addStack => simp [operandTexts]
  | push v | signal v => simpa [operandTexts] using isPrintable_decimalText v
  | popRegister r | pushRegister r => simpa [operandTexts] using isPrintable_name r
  | addRegister r1 r2 => simpa [operandTexts] using ⟨isPrintable_name r1, isPrintable_name r2⟩

/-- The operands that are written for an instruction are read back. -/
theorem parseOperands_operandTexts (m : OpcodeMap) (i : Instr) :
    parseOperands AsmParams.default m i.tag (operandTexts i) = .ok i := by
  cases i with
  | nop | addStack => rfl
  | push v | signal v =>
    simp [parseOperands, Instr.tag, operandTexts, withLiteral, parseLiteral_decimalText]
  | popRegister r | pushRegister r => simp [parseOperands, Instr.tag, operandTexts, withRegister]
  | addRegister r1 r2 =>
    simp [parseOperands, Instr.tag, operandTexts, withRegisters, withRegister]

/-- Settles O60: the operands of the text are printable tokens, and each is read back. -/
theorem instructionTextsParseBack : Obligations.InstructionTextsParseBack :=
  fun m i => parseLine_instrText (isPrintable_operandTexts i) (parseOperands_operandTexts m i)

/-! #### Refused lines (R92, R98) -/

theorem tagOfMnemonic_eq_none {m : OpcodeMap} {tok : List Char} :
    tagOfMnemonic m tok = none ↔ ∀ t, tok ≠ (registryRow m t).mnemonic.toList := by
  simp only [tagOfMnemonic, registry, Option.map_eq_none_iff, List.find?_eq_none,
    List.forall_mem_map, beq_iff_eq]
  exact ⟨fun h t ht => h t t.mem_all ht.symm, fun h t _ ht => h t ht.symm⟩

theorem parseLine_of_unknownMnemonic {p : AsmParams} {m : OpcodeMap} {line tok : List Char}
    {ops : List (List Char)} (htok : tokensOf line = tok :: ops) (hc : tok.head? ≠ some p.comment)
    (ht : tagOfMnemonic m tok = none) : parseLine p m line = .error (.unknownMnemonic tok) := by
  simp only [parseLine, htok, if_neg hc, ht]

/-- The line number of a fault counts the accepted lines before it. -/
theorem parseLines_append_of_error {p : AsmParams} {m : OpcodeMap} {good : List (List Char)}
    {bad : List Char} {e : ParseFault} (hgood : ∀ l ∈ good, ∃ o, parseLine p m l = .ok o)
    (hbad : parseLine p m bad = .error e) (number : Nat) (rest : List (List Char)) :
    parseLines p m number (good ++ bad :: rest) = .error (.parseFault (number + good.length) e) := by
  induction good generalizing number with
  | nil => exact parseLines_of_error hbad number rest
  | cons line more ih =>
    obtain ⟨⟨o, ho⟩, hmore⟩ := List.forall_mem_cons.1 hgood
    rw [List.cons_append, parseLines, ho, ih hmore, List.length_cons, Nat.add_assoc, Nat.add_comm 1]

/-- Settles O55: the registry is searched for the token, and a token it does not hold is the line's first
fault. -/
theorem unknownMnemonicIsRefused : Obligations.UnknownMnemonicIsRefused :=
  ⟨fun _ _ => tagOfMnemonic_eq_none, fun _ _ number _ rest _ _ htok hc ht =>
    parseLines_of_error (parseLine_of_unknownMnemonic htok hc ht) number rest⟩

/-- Settles O56: lines are numbered from 1, accepted ones included. -/
theorem firstBadLineStopsAssembly : Obligations.FirstBadLineStopsAssembly := by
  intro p cfg text good bad rest e hlines hgood hbad
  rw [assemble, parseText, hlines, parseLines_append_of_error hgood hbad, Nat.add_comm]

end Sys2Proof.Machine
